-- ==== Sys2Proof/Word.lean ====
section
/-! DEFINITION. The word types of the machine (spec/20_memory.md R40: 32-bit addresses, the byte is the unit). -/

namespace Sys2Proof

/-- A byte, the unit of addressing (R40). -/
abbrev Byte := BitVec 8

/-- A halfword: one unit of a Thumb instruction (R57). -/
abbrev Half := BitVec 16

/-- A word, an address, a register (R11, R40). `+` on words is addition modulo 2^32 (R7). -/
abbrev Word := BitVec 32

end Sys2Proof
end

