-- ==== Sys2Proof/Machine/Modes.lean ====
section
/-! DEFINITION. The names the spec gives the machine: modes, privilege levels, instruction sets, exceptions,
routes, mask bits, the shape of a program status register (spec/10_state.md R13 to R17, spec/60_exceptions.md R81). -/

namespace Sys2Proof

/-- Privilege levels (R9, R13). -/
inductive PL where
  | pl0 | pl1 | pl2
  deriving DecidableEq, Repr, Inhabited

/-- The processor modes of R13, and System mode, which decision D25 lets a model add
(notes/assumptions/8.md). -/
inductive Mode where
  | user | fiq | irq | supervisor | monitor | abort | hyp | undefined | system
  deriving DecidableEq, Repr, Inhabited

/-- The modes an exception can be taken to: those that have an SPSR and a LINK cell (R14). -/
inductive ExcMode where
  | supervisor | undefined | abort | irq | fiq | monitor | hyp
  deriving DecidableEq, Repr, Inhabited

/-- The mode an exception mode is. -/
def ExcMode.toMode : ExcMode → Mode
  | .supervisor => .supervisor
  | .undefined => .undefined
  | .abort => .abort
  | .irq => .irq
  | .fiq => .fiq
  | .monitor => .monitor
  | .hyp => .hyp

/-- The cells `SPSR[m]`, `LINK[m]` a mode has; User and System mode have none (R14, D25). -/
def Mode.excMode : Mode → Option ExcMode
  | .user | .system => none
  | .fiq => some .fiq
  | .irq => some .irq
  | .supervisor => some .supervisor
  | .monitor => some .monitor
  | .abort => some .abort
  | .hyp => some .hyp
  | .undefined => some .undefined

/-- The privilege level of a mode (R13). -/
def Mode.pl : Mode → PL
  | .user => .pl0
  | .hyp => .pl2
  | .fiq | .irq | .supervisor | .monitor | .abort | .undefined | .system => .pl1

/-- `PLof` of R110: Hyp is PL2, the six other target modes are PL1. -/
def ExcMode.pl (m : ExcMode) : PL := m.toMode.pl

/-- Privilege levels as numbers, for "raises privilege" (D20). -/
def PL.rank : PL → Nat
  | .pl0 => 0
  | .pl1 => 1
  | .pl2 => 2

/-- The five-bit mode numbers (G3, from general knowledge: notes/assumptions/7.md). -/
def Mode.bits : Mode → BitVec 5
  | .user => 0b10000#5
  | .fiq => 0b10001#5
  | .irq => 0b10010#5
  | .supervisor => 0b10011#5
  | .monitor => 0b10110#5
  | .abort => 0b10111#5
  | .hyp => 0b11010#5
  | .undefined => 0b11011#5
  | .system => 0b11111#5

/-- The mode a five-bit number names; none for the numbers G3 gives no mode. -/
def Mode.ofBits (b : BitVec 5) : Option Mode :=
  if b = 0b10000#5 then some .user
  else if b = 0b10001#5 then some .fiq
  else if b = 0b10010#5 then some .irq
  else if b = 0b10011#5 then some .supervisor
  else if b = 0b10110#5 then some .monitor
  else if b = 0b10111#5 then some .abort
  else if b = 0b11010#5 then some .hyp
  else if b = 0b11011#5 then some .undefined
  else if b = 0b11111#5 then some .system
  else none

/-- The instruction set state, `J:T` (R16, R56). Jazelle and ThumbEE exist as values of the field only:
the spec puts them out of scope (R4). -/
inductive ISet where
  | arm | thumb | jazelle | thumbEE
  deriving DecidableEq, Repr, Inhabited

/-- The mask bits of the CPSR: `a` asynchronous aborts, `i` IRQ, `f` FIQ (R16). -/
structure Masks where
  a : Bool
  i : Bool
  f : Bool
  deriving DecidableEq, Repr, Inhabited

/-- No mask bit set. -/
def Masks.none : Masks := ⟨false, false, false⟩

/-- Every mask bit set. -/
def Masks.all : Masks := ⟨true, true, true⟩

/-- The union of two sets of mask bits (R116). -/
def Masks.union (x y : Masks) : Masks := ⟨x.a || y.a, x.i || y.i, x.f || y.f⟩

/-- The set `x` without the members of `y` (R71, `imod == '10'`). -/
def Masks.diff (x y : Masks) : Masks := ⟨x.a && !y.a, x.i && !y.i, x.f && !y.f⟩

/-- A program status register, the shape of the CPSR and of every SPSR (R14, R16, R31): the named parts,
and "everything else" as the flags `n z c v q`, `ge` and the four bits `res` that the layout gives no name. -/
structure PSR where
  n : Bool
  z : Bool
  c : Bool
  v : Bool
  q : Bool
  res : BitVec 4
  ge : BitVec 4
  it : BitVec 8
  iset : ISet
  e : Bool
  masks : Masks
  mode : Mode
  deriving DecidableEq, Repr, Inhabited

/-- The thirteen exceptions of R81; the machine has no other. -/
inductive Exc where
  | reset | undefinedInstruction | supervisorCall | secureMonitorCall | hypervisorCall | prefetchAbort
  | dataAbort | hypTrap | irq | fiq | virtualAbort | virtualIRQ | virtualFIQ
  deriving DecidableEq, Repr, Inhabited

/-- The asynchronous exceptions (R82), the members `Pending` can have (R29). -/
inductive AsyncExc where
  | irq | fiq | virtualIRQ | virtualFIQ | virtualAbort
  deriving DecidableEq, Repr, Inhabited

/-- The exception an asynchronous event is. -/
def AsyncExc.toExc : AsyncExc → Exc
  | .irq => .irq
  | .fiq => .fiq
  | .virtualIRQ => .virtualIRQ
  | .virtualFIQ => .virtualFIQ
  | .virtualAbort => .virtualAbort

/-- The exceptions the Virtualization Extensions add as virtual ones (R101). -/
def AsyncExc.isVirtual : AsyncExc → Bool
  | .irq | .fiq => false
  | .virtualIRQ | .virtualFIQ | .virtualAbort => true

/-- The synchronous exceptions an instruction causes by failing (R82). -/
inductive SyncCause where
  | undefinedInstruction | prefetchAbort | dataAbort | hypTrap
  deriving DecidableEq, Repr, Inhabited

/-- The exception a failing instruction causes. -/
def SyncCause.toExc : SyncCause → Exc
  | .undefinedInstruction => .undefinedInstruction
  | .prefetchAbort => .prefetchAbort
  | .dataAbort => .dataAbort
  | .hypTrap => .hypTrap

/-- The three places an exception can be taken (R93, R132). -/
inductive Route where
  | pl1 | monitor | hyp
  deriving DecidableEq, Repr, Inhabited

/-- One cell for each mode an exception can be taken to (R14). -/
structure Bank (α : Type) where
  svc : α
  und : α
  abt : α
  irq : α
  fiq : α
  mon : α
  hyp : α
  deriving DecidableEq, Repr, Inhabited

/-- The cell of mode `m`. -/
def Bank.get {α : Type} (b : Bank α) : ExcMode → α
  | .supervisor => b.svc
  | .undefined => b.und
  | .abort => b.abt
  | .irq => b.irq
  | .fiq => b.fiq
  | .monitor => b.mon
  | .hyp => b.hyp

/-- The bank with the cell of mode `m` replaced. -/
def Bank.set {α : Type} (b : Bank α) (m : ExcMode) (x : α) : Bank α :=
  match m with
  | .supervisor => { b with svc := x }
  | .undefined => { b with und := x }
  | .abort => { b with abt := x }
  | .irq => { b with irq := x }
  | .fiq => { b with fiq := x }
  | .monitor => { b with mon := x }
  | .hyp => { b with hyp := x }

/-- A bank with the same value in every cell. -/
def Bank.const {α : Type} (x : α) : Bank α := ⟨x, x, x, x, x, x, x⟩

end Sys2Proof
end

