-- ==== Sys2Proof/Config.lean ====
section
/-! DEFINITION. What an implementation fixes (spec/00_scope.md R6) and the free values that do not read the
state. The parameters that are plain data are the structure `Impl`, held in the state so that every claim ranges
over every implementation (notes/assumptions/1.md); the open functions are opaque constants
(notes/assumptions/2.md). The open functions that read the state stand in Machine/Params.lean. -/

namespace Sys2Proof

/-- The architecture profile, `P_PROFILE` (R1, R6). -/
inductive Profile where
  | a | r
  deriving DecidableEq, Repr, Inhabited

/-- A byte order (R46). -/
inductive Endian where
  | little | big
  deriving DecidableEq, Repr, Inhabited

/-- `ILen` (R6, D27): for each row of the opcode table, how far the instruction after it lies. Open: it is not tied
to the size of the encoding (notes/assumptions/10.md). -/
structure ILen where
  svcA1 : Nat
  svcT1 : Nat
  smcA1 : Nat
  smcT1 : Nat
  hvcA1 : Nat
  hvcT1 : Nat
  srsA1 : Nat
  srsT1 : Nat
  srsT2 : Nat
  cpsA1 : Nat
  cpsT1 : Nat
  cpsT2 : Nat
  deriving DecidableEq, Repr, Inhabited

/-- The lengths of G15: PRESUMED (notes/assumptions/10.md), the value of `ILen` in `Impl.full` only. -/
def ILen.family : ILen where
  svcA1 := 4
  svcT1 := 2
  smcA1 := 4
  smcT1 := 4
  hvcA1 := 4
  hvcT1 := 4
  srsA1 := 4
  srsT1 := 4
  srsT2 := 4
  cpsA1 := 4
  cpsT1 := 2
  cpsT2 := 4

/-- The implementation parameters of R6 that are plain data. -/
structure Impl where
  /-- `P_PROFILE`. -/
  profile : Profile
  /-- `P_SECEXT`, `HaveSecurityExt()` of R8. -/
  secExt : Bool
  /-- `P_VIRTEXT`. -/
  virtExt : Bool
  /-- `P_VECIRQ`. -/
  vecIrq : Bool
  /-- The optional answer of `Route` for SVC in Hyp mode, with the vector's place in the Hyp table (D21,
  notes/assumptions/26.md): `none` refuses it, `some k` is the word after the unused one (R103), at `4 * (k + 1)`. -/
  svcFromHyp : Option (Fin 7)
  /-- `BYTE_ORDER` where `CPSR.E` is 0 (R46, D11). -/
  orderE0 : Endian
  /-- `BYTE_ORDER` where `CPSR.E` is 1 (R46, D11). -/
  orderE1 : Endian
  /-- The byte order of instruction fetch where `CPSR.E` is 0, open (R46, D11, notes/assumptions/10.md). -/
  fetchE0 : Endian
  /-- The byte order of instruction fetch where `CPSR.E` is 1: whether fetch follows the CPSR is open too (R46, D11,
  notes/assumptions/10.md), so an implementation may give the two fields one value or two. -/
  fetchE1 : Endian
  /-- `ILen`. -/
  iLen : ILen
  deriving DecidableEq, Repr, Inhabited

/-- The constraints of R2: the Virtualization Extensions need the Security Extensions, and ARMv7-R has no
Security Extensions. -/
def Impl.legal (c : Impl) : Bool :=
  (!c.virtExt || c.secExt) && (!(c.profile == .r) || !c.secExt)

/-- The implementation of `State.reset`: both extensions and vectored interrupts, so that every instruction of
the table exists; byte orders as G3 and G14 have them. DESIGN CHOICE (notes/assumptions/1.md), unsafe only for
a claim about `State.reset`. -/
def Impl.full : Impl where
  profile := .a
  secExt := true
  virtExt := true
  vecIrq := true
  svcFromHyp := none
  orderE0 := .little
  orderE1 := .big
  fetchE0 := .little
  fetchE1 := .little
  iLen := .family

/-- `LinkOffset(e, PL1, iset)` (R112, D3): open. -/
opaque Config.linkOffsetPL1 (e : Exc) (iset : ISet) : Nat

/-- `LinkOffset(e, PL2, iset)` (R112, D3): open. R112 lets the instruction set state matter only for
exceptions taken to a PL1 mode. -/
opaque Config.linkOffsetPL2 (e : Exc) : Nat

/-- How the IT bits of a Thumb If-Then block advance past one instruction (R17): not in the spec's source, free
(notes/assumptions/15.md). -/
opaque Config.itAdvance (it : BitVec 8) : BitVec 8

/-- Whether `SCTLR.VE` holds a 1 that software writes where the vectored-interrupt hardware is absent: not in the spec's
source (R19, U2 "any value"), free (notes/assumptions/47.md). -/
opaque Config.veHeldWithoutHardware : Bool

/-- `VectoredAddr(e)`, the address the interrupt controller supplies at draw `k` (R104, D17): a fresh free value
at each vectored entry. -/
opaque Config.vectoredAddr (e : Exc) (k : Nat) : Word

/-- Which asynchronous exception the processor would take at draw `k`, or none: no order and no obligation to take
one is in the spec (R108, R146, notes/assumptions/29.md). -/
opaque Config.asyncChoice (k : Nat) : Option AsyncExc

end Sys2Proof
end

