-- ==== Sys2Proof/Syntax.lean ====
section
/-! DEFINITION. The instructions: one constructor per row of spec/opcode_table.json, with the fields of
spec/30_encoding.md R57 (all from general knowledge there: notes/assumptions/12.md). -/

namespace Sys2Proof

/-- The twelve rows of the opcode table (R57, R59). -/
inductive Instr where
  /-- SVC, ARM A1: `cond`[31:28], `imm24`[23:0]. -/
  | svcA1 (cond : BitVec 4) (imm24 : BitVec 24)
  /-- SVC, Thumb T1: `imm8`[7:0]. -/
  | svcT1 (imm8 : BitVec 8)
  /-- SMC, ARM A1: `cond`[31:28], `imm4`[3:0]. -/
  | smcA1 (cond : BitVec 4) (imm4 : BitVec 4)
  /-- SMC, Thumb T1: `imm4` = hw1[3:0]. -/
  | smcT1 (imm4 : BitVec 4)
  /-- HVC, ARM A1: `imm16 = imm12:imm4` with `imm12`[19:8], `imm4`[3:0]. -/
  | hvcA1 (imm16 : BitVec 16)
  /-- HVC, Thumb T1: `imm16 = imm4:imm12` with `imm4` = hw1[3:0], `imm12` = hw2[11:0]. -/
  | hvcT1 (imm16 : BitVec 16)
  /-- SRS, ARM A1: `P`[24], `U`[23], `W`[21], `mode`[4:0]. -/
  | srsA1 (p u w : Bool) (mode : BitVec 5)
  /-- SRSDB, Thumb T1: `W` = hw1[5], `mode` = hw2[4:0]. -/
  | srsT1 (w : Bool) (mode : BitVec 5)
  /-- SRSIA, Thumb T2: `W` = hw1[5], `mode` = hw2[4:0]. -/
  | srsT2 (w : Bool) (mode : BitVec 5)
  /-- CPS, ARM A1: `imod`[19:18], `M`[17], `A`[8], `I`[7], `F`[6], `mode`[4:0]. -/
  | cpsA1 (imod : BitVec 2) (m a i f : Bool) (mode : BitVec 5)
  /-- CPS, Thumb T1: `im`[4] (0 enable, 1 disable), `A`[2], `I`[1], `F`[0]. -/
  | cpsT1 (im a i f : Bool)
  /-- CPS, Thumb T2: `imod` = hw2[10:9], `M` = hw2[8], `A`[7], `I`[6], `F`[5], `mode` = hw2[4:0]. -/
  | cpsT2 (imod : BitVec 2) (m a i f : Bool) (mode : BitVec 5)
  deriving DecidableEq, Repr

end Sys2Proof
end

