-- ==== Sys2Proof/WellFormed.lean ====
section
/-! DEFINITION. Which terms of `Instr` stand for an encoding (spec/30_encoding.md R57). -/

namespace Sys2Proof

/-- A term is well formed when its fields are values its encoding admits: `cond == 1111` selects the
unconditional instruction space (R57), so no conditional ARM instruction carries it
(notes/assumptions/12.md). Every other field takes every value of its width. -/
def Instr.wellFormed : Instr → Bool
  | .svcA1 cond _ => cond != 0xF#4
  | .smcA1 cond _ => cond != 0xF#4
  | .svcT1 _ | .smcT1 _ | .hvcA1 _ | .hvcT1 _ | .srsA1 _ _ _ _ | .srsT1 _ _ | .srsT2 _ _
  | .cpsA1 _ _ _ _ _ _ | .cpsT1 _ _ _ _ | .cpsT2 _ _ _ _ _ _ => true

end Sys2Proof
end

