-- ==== Sys2Proof/Decode.lean ====
section
/-! DEFINITION. The decoder and, after it, the encoder, both from the patterns of spec/30_encoding.md R57
(general knowledge there: notes/assumptions/12.md). The decoder is total on any bytes and rejects by name. -/

namespace Sys2Proof

/-- Why bytes are no instruction of the table. None of these says "undefined": R59. -/
inductive DecodeError where
  /-- Fewer bytes than the instruction has. -/
  | tooShort
  /-- An ARM word that matches no ARM row of R57. -/
  | noArmRow (w : Word)
  /-- A 16-bit Thumb instruction that matches no row of R57. -/
  | noThumb16Row (h : Half)
  /-- A 32-bit Thumb instruction that matches no row of R57. -/
  | noThumb32Row (h1 h2 : Half)
  /-- Jazelle and ThumbEE states are out of scope (R4). -/
  | isetOutOfScope (iset : ISet)
  deriving DecidableEq, Repr

/-- The code of one instruction: an ARM word, one halfword, or two halfwords, the first at the lower address. -/
inductive Code where
  | arm (w : Word)
  | t16 (h : Half)
  | t32 (h1 h2 : Half)
  deriving DecidableEq, Repr

/-- The ARM rows of R57. -/
def decodeArm (w : Word) : Except DecodeError Instr :=
  if w &&& 0x0F000000#32 = 0x0F000000#32 ∧ w.extractLsb' 28 4 ≠ 0xF#4 then
    .ok (.svcA1 (w.extractLsb' 28 4) (w.extractLsb' 0 24))
  else if w &&& 0x0FFFFFF0#32 = 0x01600070#32 ∧ w.extractLsb' 28 4 ≠ 0xF#4 then
    .ok (.smcA1 (w.extractLsb' 28 4) (w.extractLsb' 0 4))
  else if w &&& 0xFFF000F0#32 = 0xE1400070#32 then
    .ok (.hvcA1 (w.extractLsb' 8 12 ++ w.extractLsb' 0 4))
  else if w &&& 0xFE5FFFE0#32 = 0xF84D0500#32 then
    .ok (.srsA1 (w.getLsbD 24) (w.getLsbD 23) (w.getLsbD 21) (w.extractLsb' 0 5))
  else if w &&& 0xFFF1FE20#32 = 0xF1000000#32 then
    .ok (.cpsA1 (w.extractLsb' 18 2) (w.getLsbD 17) (w.getLsbD 8) (w.getLsbD 7) (w.getLsbD 6)
      (w.extractLsb' 0 5))
  else .error (.noArmRow w)

/-- Whether a first halfword starts a 32-bit Thumb instruction: bits [15:11] are 11101, 11110 or 11111 (R57). -/
def isThumb32 (h : Half) : Bool :=
  h.extractLsb' 11 5 == 0b11101#5 || h.extractLsb' 11 5 == 0b11110#5 || h.extractLsb' 11 5 == 0b11111#5

/-- The 16-bit Thumb rows of R57. -/
def decodeThumb16 (h : Half) : Except DecodeError Instr :=
  if h &&& 0xFF00#16 = 0xDF00#16 then .ok (.svcT1 (h.extractLsb' 0 8))
  else if h &&& 0xFFE8#16 = 0xB660#16 then
    .ok (.cpsT1 (h.getLsbD 4) (h.getLsbD 2) (h.getLsbD 1) (h.getLsbD 0))
  else .error (.noThumb16Row h)

/-- The 32-bit Thumb rows of R57. -/
def decodeThumb32 (h1 h2 : Half) : Except DecodeError Instr :=
  if h1 &&& 0xFFF0#16 = 0xF7F0#16 ∧ h2 = 0x8000#16 then .ok (.smcT1 (h1.extractLsb' 0 4))
  else if h1 &&& 0xFFF0#16 = 0xF7E0#16 ∧ h2 &&& 0xF000#16 = 0x8000#16 then
    .ok (.hvcT1 (h1.extractLsb' 0 4 ++ h2.extractLsb' 0 12))
  else if h1 &&& 0xFFDF#16 = 0xE80D#16 ∧ h2 &&& 0xFFE0#16 = 0xC000#16 then
    .ok (.srsT1 (h1.getLsbD 5) (h2.extractLsb' 0 5))
  else if h1 &&& 0xFFDF#16 = 0xE98D#16 ∧ h2 &&& 0xFFE0#16 = 0xC000#16 then
    .ok (.srsT2 (h1.getLsbD 5) (h2.extractLsb' 0 5))
  else if h1 = 0xF3AF#16 ∧ h2 &&& 0xF800#16 = 0x8000#16 then
    .ok (.cpsT2 (h2.extractLsb' 9 2) (h2.getLsbD 8) (h2.getLsbD 7) (h2.getLsbD 6) (h2.getLsbD 5)
      (h2.extractLsb' 0 5))
  else .error (.noThumb32Row h1 h2)

/-- The halfword two bytes hold, the first byte at the lower address. -/
def halfOfBytes (o : Endian) (b0 b1 : Byte) : Half :=
  match o with
  | .little => b1 ++ b0
  | .big => b0 ++ b1

/-- The bytes of a halfword, lowest address first. -/
def bytesOfHalf (o : Endian) (h : Half) : List Byte :=
  match o with
  | .little => [h.extractLsb' 0 8, h.extractLsb' 8 8]
  | .big => [h.extractLsb' 8 8, h.extractLsb' 0 8]

/-- The word four bytes hold, the first byte at the lowest address (R46). -/
def wordOfBytes (o : Endian) (b0 b1 b2 b3 : Byte) : Word :=
  match o with
  | .little => b3 ++ b2 ++ b1 ++ b0
  | .big => b0 ++ b1 ++ b2 ++ b3

/-- The bytes of a word, lowest address first (R46). -/
def bytesOfWord (o : Endian) (w : Word) : List Byte :=
  match o with
  | .little => [w.extractLsb' 0 8, w.extractLsb' 8 8, w.extractLsb' 16 8, w.extractLsb' 24 8]
  | .big => [w.extractLsb' 24 8, w.extractLsb' 16 8, w.extractLsb' 8 8, w.extractLsb' 0 8]

/-- The decoder: the instruction at the head of the bytes, and the bytes after it. The instruction set state, not
a prefix, chooses the set (R57). -/
def decode (iset : ISet) (o : Endian) (bytes : List Byte) : Except DecodeError (Instr × List Byte) :=
  match iset with
  | .arm =>
    match bytes with
    | b0 :: b1 :: b2 :: b3 :: rest => (decodeArm (wordOfBytes o b0 b1 b2 b3)).map (·, rest)
    | _ => .error .tooShort
  | .thumb =>
    match bytes with
    | b0 :: b1 :: rest =>
      if isThumb32 (halfOfBytes o b0 b1) then
        match rest with
        | b2 :: b3 :: rest' =>
          (decodeThumb32 (halfOfBytes o b0 b1) (halfOfBytes o b2 b3)).map (·, rest')
        | _ => .error .tooShort
      else (decodeThumb16 (halfOfBytes o b0 b1)).map (·, rest)
    | _ => .error .tooShort
  | .jazelle => .error (.isetOutOfScope .jazelle)
  | .thumbEE => .error (.isetOutOfScope .thumbEE)

/-- The instruction set an instruction belongs to (R57). -/
def Instr.iset : Instr → ISet
  | .svcA1 _ _ | .smcA1 _ _ | .hvcA1 _ | .srsA1 _ _ _ _ | .cpsA1 _ _ _ _ _ _ => .arm
  | .svcT1 _ | .smcT1 _ | .hvcT1 _ | .srsT1 _ _ | .srsT2 _ _ | .cpsT1 _ _ _ _
  | .cpsT2 _ _ _ _ _ _ => .thumb

/-- The bytes an encoding occupies (R57). The open parameter `ILen` of R6, by which the pc moves on, is `Impl.iLen`. -/
def Instr.len : Instr → Nat
  | .svcT1 _ | .cpsT1 _ _ _ _ => 2
  | .svcA1 _ _ | .smcA1 _ _ | .hvcA1 _ | .srsA1 _ _ _ _ | .cpsA1 _ _ _ _ _ _
  | .smcT1 _ | .hvcT1 _ | .srsT1 _ _ | .srsT2 _ _ | .cpsT2 _ _ _ _ _ _ => 4

/-- The encoder: the code of an instruction, written from the patterns of R57. -/
def encode : Instr → Code
  | .svcA1 cond imm24 => .arm (cond ++ 0xF#4 ++ imm24)
  | .svcT1 imm8 => .t16 (0xDF#8 ++ imm8)
  | .smcA1 cond imm4 => .arm (cond ++ 0x160007#24 ++ imm4)
  | .smcT1 imm4 => .t32 (0xF7F#12 ++ imm4) 0x8000#16
  | .hvcA1 imm16 => .arm (0xE14#12 ++ imm16.extractLsb' 4 12 ++ 0x7#4 ++ imm16.extractLsb' 0 4)
  | .hvcT1 imm16 => .t32 (0xF7E#12 ++ imm16.extractLsb' 12 4) (0x8#4 ++ imm16.extractLsb' 0 12)
  | .srsA1 p u w mode =>
    .arm (0b1111100#7 ++ BitVec.ofBool p ++ BitVec.ofBool u ++ 1#1 ++ BitVec.ofBool w
      ++ 0b0110100000101000#16 ++ mode)
  | .srsT1 w mode => .t32 (0b1110100000#10 ++ BitVec.ofBool w ++ 0b01101#5) (0b11000000000#11 ++ mode)
  | .srsT2 w mode => .t32 (0b1110100110#10 ++ BitVec.ofBool w ++ 0b01101#5) (0b11000000000#11 ++ mode)
  | .cpsA1 imod m a i f mode =>
    .arm (0b111100010000#12 ++ imod ++ BitVec.ofBool m ++ 0b00000000#8 ++ BitVec.ofBool a
      ++ BitVec.ofBool i ++ BitVec.ofBool f ++ 0#1 ++ mode)
  | .cpsT1 im a i f =>
    .t16 (0b10110110011#11 ++ BitVec.ofBool im ++ 0#1 ++ BitVec.ofBool a ++ BitVec.ofBool i
      ++ BitVec.ofBool f)
  | .cpsT2 imod m a i f mode =>
    .t32 0xF3AF#16 (0b10000#5 ++ imod ++ BitVec.ofBool m ++ BitVec.ofBool a ++ BitVec.ofBool i
      ++ BitVec.ofBool f ++ mode)

/-- The bytes of a code, lowest address first. -/
def Code.bytes (o : Endian) : Code → List Byte
  | .arm w => bytesOfWord o w
  | .t16 h => bytesOfHalf o h
  | .t32 h1 h2 => bytesOfHalf o h1 ++ bytesOfHalf o h2

/-- The code and the instruction set that a table word of `nbits` bits stands for: a 16-bit row is Thumb; a
32-bit row is the ARM word if an ARM row matches it, else the Thumb pair hw1 = [31:16], hw2 = [15:0], as
spec/opcode_table.json numbers the Thumb rows (notes/assumptions/38.md). -/
def codeOfTableWord (nbits w : Nat) : Code :=
  if nbits = 16 then .t16 (BitVec.ofNat 16 w)
  else
    match decodeArm (BitVec.ofNat 32 w) with
    | .ok _ => .arm (BitVec.ofNat 32 w)
    | .error _ =>
      match decodeThumb32 ((BitVec.ofNat 32 w).extractLsb' 16 16) ((BitVec.ofNat 32 w).extractLsb' 0 16) with
      | .ok _ => .t32 ((BitVec.ofNat 32 w).extractLsb' 16 16) ((BitVec.ofNat 32 w).extractLsb' 0 16)
      | .error _ => .arm (BitVec.ofNat 32 w)

/-- The instruction set a code is decoded in. -/
def Code.iset : Code → ISet
  | .arm _ => .arm
  | .t16 _ | .t32 _ _ => .thumb

/-- The bytes of a table word as memory holds them, with zeros above a 16-bit row's halfword. -/
def bytesOfTableWord (o : Endian) (nbits w : Nat) : List Byte :=
  match codeOfTableWord nbits w with
  | .t16 h => bytesOfHalf o h ++ [0#8, 0#8]
  | c => c.bytes o

/-- The instruction the decoder reads from a table row's bits, laid out in little-endian units. -/
def decodeTableWord (nbits w : Nat) : Option Instr :=
  if nbits = 16 ∨ nbits = 32 then
    match decode (codeOfTableWord nbits w).iset .little (bytesOfTableWord .little nbits w) with
    | .ok (i, _) => some i
    | .error _ => none
  else none

end Sys2Proof
end

