-- ==== Sys2Proof/Machine/State.lean ====
section
/-! DEFINITION. The state of the machine (spec/10_state.md R31, with the stack pointers of R12 and R70 and the
address spaces of spec/20_memory.md R41), the reasons a step can stop, and the state after reset (R33). -/

namespace Sys2Proof.Machine

/-- The named bits of one copy of SCTLR (R18, R19). -/
structure Sctlr where
  v : Bool
  ve : Bool
  deriving DecidableEq, Repr, Inhabited

/-- The named bits of SCR (R23, R24). -/
structure Scr where
  ns : Bool
  irq : Bool
  fiq : Bool
  deriving DecidableEq, Repr, Inhabited

/-- The named bit of HCR (R25). -/
structure Hcr where
  tge : Bool
  deriving DecidableEq, Repr, Inhabited

/-- `Pending`, a set of asynchronous exceptions (R29, R31). -/
structure Pending where
  irq : Bool
  fiq : Bool
  virtualIRQ : Bool
  virtualFIQ : Bool
  virtualAbort : Bool
  deriving DecidableEq, Repr, Inhabited

/-- The empty set of pending exceptions. -/
def Pending.none : Pending := ⟨false, false, false, false, false⟩

/-- The address spaces of R41. Without the Security Extensions there is one, `securePL1`
(notes/assumptions/5.md). -/
inductive Regime where
  | securePL1 | nonsecurePL1 | pl2
  deriving DecidableEq, Repr, Inhabited

/-- The bytes of one address space: (address, byte) pairs in the canonical form of `Memory.wf`. -/
abbrev Memory := List Host.Cell

/-- What the Reset step draws for everything R33 calls unspecified (notes/assumptions/31.md, 32.md). `masks`,
`iset` and `e` are the values R140 names `EntryMask(Reset, ...)`, `EntryISet` and `EntryEndian`. -/
structure ResetDraw where
  n : Bool
  z : Bool
  c : Bool
  v : Bool
  q : Bool
  res : BitVec 4
  ge : BitVec 4
  iset : ISet
  e : Bool
  masks : Masks
  /-- `RESET_V`. -/
  resetV : Bool
  sctlrNSV : Bool
  /-- `RESET_VBAR_S`. -/
  resetVbarS : Word
  vbarNS : Word
  mvbar : Word
  hvbar : Word
  scrIrq : Bool
  scrFiq : Bool
  hcrTge : Bool
  spsr : Bank PSR
  link : Bank Word
  sp : Bank Word
  spUsr : Word
  pending : Pending
  deriving DecidableEq, Repr, Inhabited

/-- One write by an instruction the spec does not describe, the abstract `Execute` of R5, unconstrained (D1, U14,
notes/assumptions/34.md): any part of the CPSR but the mode (R131), the unnamed bits [23:20] among them (R16: what sets
them is outside the spec), a cell of any mode, a control register (R18 to R25), or a byte of any address space. `ns`
chooses the Non-secure copy. -/
inductive RegWrite where
  | cpsrFlags (n z c v q : Bool) (ge : BitVec 4)
  | cpsrRes (res : BitVec 4)
  | cpsrIt (it : BitVec 8)
  | cpsrISet (iset : ISet)
  | cpsrE (e : Bool)
  | cpsrMasks (masks : Masks)
  | spsr (m : ExcMode) (p : PSR)
  | link (m : ExcMode) (w : Word)
  | sp (k : Mode) (w : Word)
  | sctlrV (ns : Bool) (b : Bool)
  | sctlrVE (ns : Bool) (b : Bool)
  | vbar (ns : Bool) (w : Word)
  | mvbar (w : Word)
  | hvbar (w : Word)
  | scrNS (b : Bool)
  | scrIRQ (b : Bool)
  | scrFIQ (b : Bool)
  | hcrTGE (b : Bool)
  | store (r : Regime) (a : Word) (b : Byte)
  deriving DecidableEq, Repr

/-- What comes from outside the described machine at one instruction boundary (notes/assumptions/4.md). -/
inductive Input where
  /-- Nothing: the machine goes on by itself. -/
  | quiet
  /-- The environment sets `Pending` (R29, D10). -/
  | pending (p : Pending)
  /-- Reset is asserted, with the draw of everything R33 leaves unspecified (R140). -/
  | reset (d : ResetDraw)
  /-- The instruction at the pc fails: it is undefined, its fetch or its data access aborts, or it is trapped
  (the input predicates of U14, R60, R83). -/
  | raise (c : SyncCause)
  /-- The handler's instruction at the pc performs an exception return (R125; the spec names none that does). -/
  | ret (addr : Word) (psr : PSR)
  /-- The ordinary instruction at the pc completes with these writes and goes on at `next` (R5). -/
  | execute (ws : List RegWrite) (next : Word)
  deriving DecidableEq, Repr

/-- The complete state (R31). `impl` never changes (R32); `stored`, the bytes the program has stored to since launch
(R53, notes/assumptions/23.md), `inputs` and `draws` are the model's own (notes/assumptions/3.md, 4.md). `sctlrS` and
`vbarS` are the only copies where there are no Security Extensions. -/
structure State where
  impl : Impl
  pc : Word
  cpsr : PSR
  spsr : Bank PSR
  link : Bank Word
  sp : Bank Word
  spUsr : Word
  sctlrS : Sctlr
  sctlrNS : Sctlr
  vbarS : Word
  vbarNS : Word
  mvbar : Word
  hvbar : Word
  scr : Scr
  hcr : Hcr
  pending : Pending
  memS : Memory
  memNS : Memory
  memHyp : Memory
  stored : List (Regime × Word)
  inputs : List Input
  draws : Nat
  deriving DecidableEq, Repr

/-- Faults: the machine stops where the spec gives no value to go on with. -/
inductive Fault where
  /-- Raised by the instruction fetch when it reads a byte that nothing has written. Safe: the spec gives such a
  byte no value (notes/assumptions/6.md). -/
  | unwrittenFetch (addr : Word)
  deriving DecidableEq, Repr

/-- Refusals: the spec gives no effect, or decides that the model refuses. All are safe: no next state is claimed. -/
inductive Refusal where
  /-- Raised by the dispatch for an instruction without a meaning. Safe. -/
  | notModelled (mnemonic : String)
  /-- Raised by exception entry: the vector base has a bit of [4:0] set (R43, D12). Safe. -/
  | unalignedVectorBase (base : Word)
  /-- Raised by exception entry: SVC in Hyp mode where the implementation gives no route (R65, D21). Safe. -/
  | svcInHyp
  /-- Raised by exception entry: a virtual IRQ or FIQ while Non-secure SCTLR.VE is 1 and the vectoring hardware
  exists (R105, D22). Safe. -/
  | virtualInterruptVectored
  /-- Raised by exception entry: this configuration or state has no such exception or no vector for it (R81,
  R95, R101). Safe. -/
  | noSuchException (e : Exc)
  /-- Raised by exception entry for Reset, which is taken by `takeReset` alone (R110, R140). Safe. -/
  | resetIsNoEntry
  /-- Raised by SMC without the Security Extensions and by HVC without the Virtualization Extensions: the
  instruction does not exist (R66, R67, TV121). Safe. -/
  | noSuchInstruction
  /-- Raised by SMC in User mode and by HVC in Secure state and in User mode: "permitted here" is a premise of R66 and
  R67 (U13, notes/assumptions/17.md). Safe. -/
  | callNotPermitted
  /-- Raised by SRS in User and System mode, which have no return state; unpredictable (R70, G9). Safe. -/
  | srsNoReturnState
  /-- Raised by SRS whose operand names no mode of the handler's privilege level (R70). Safe. -/
  | srsStackMode (mode : BitVec 5)
  /-- Raised by CPS whose target is User, Monitor, Hyp or no mode (R71, D20). Safe. -/
  | cpsTarget (mode : BitVec 5)
  /-- Raised by a store into a vector table (R53, D14, U15). Safe. -/
  | vectorTableStore (addr : Word)
  /-- Raised by exception entry and reset through a table that the program has stored to since launch (R53, D14,
  U15, notes/assumptions/23.md). Safe. -/
  | vectorTableStored (base : Word)
  /-- Raised by exception return to a mode that does not exist here (R125, D20). Safe. -/
  | returnMode
  /-- Raised by exception return that would raise privilege (R125, D20). Safe. -/
  | returnPrivilege
  /-- Raised by exception return to an address not aligned for the instruction set returned to (R128, D20). Safe. -/
  | returnAlignment
  /-- Raised by fetch and by exception return in Jazelle or ThumbEE state: out of scope (R4). Safe. -/
  | isetOutOfScope (iset : ISet)
  /-- Raised by fetch at a pc not aligned for the instruction set (R47, R57). Safe. -/
  | misalignedFetch (addr : Word)
  /-- Raised by fetch of an instruction that is none of the five (R5, R59, D1). Safe. -/
  | outsideTheFive
  /-- Raised by the abstract `Execute` writing a register or a cell that this configuration lacks (R13, R20 to R25,
  R31). Safe. -/
  | noSuchRegister
  /-- Raised by the abstract `Execute` storing to an address space that this configuration lacks (R41). Safe. -/
  | noSuchAddressSpace
  /-- Raised by the abstract `Execute` clearing `SCR.NS` in Hyp mode, which is Non-secure only (R13). Safe. -/
  | hypModeIsNonsecure
  deriving DecidableEq, Repr

/-- The values State.reset takes where R33 gives none (notes/assumptions/31.md): zero, and the family's values
where R33's column GK gives one. DESIGN CHOICE and PRESUMED, unsafe. -/
def ResetDraw.named : ResetDraw where
  n := false
  z := false
  c := false
  v := false
  q := false
  res := 0
  ge := 0
  iset := .arm
  e := false
  masks := .all
  resetV := false
  sctlrNSV := false
  resetVbarS := 0
  vbarNS := 0
  mvbar := 0
  hvbar := 0
  scrIrq := false
  scrFiq := false
  hcrTge := false
  spsr := .const ⟨false, false, false, false, false, 0, 0, 0, .arm, false, .none, .user⟩
  link := .const 0
  sp := .const 0
  spUsr := 0
  pending := .none

/-- The machine right after reset (R33, R140, R141): Supervisor mode, Secure state, IT and every SCTLR.VE clear,
the pc at the Reset vector; every other value from `ResetDraw.named`; memory with nothing listed. -/
def State.reset : State where
  impl := .full
  pc := 0x00000000#32
  cpsr :=
    { n := false, z := false, c := false, v := false, q := false, res := 0, ge := 0, it := 0
      iset := .arm, e := false, masks := .all, mode := .supervisor }
  spsr := ResetDraw.named.spsr
  link := ResetDraw.named.link
  sp := ResetDraw.named.sp
  spUsr := ResetDraw.named.spUsr
  sctlrS := ⟨false, false⟩
  sctlrNS := ⟨false, false⟩
  vbarS := 0
  vbarNS := 0
  mvbar := 0
  hvbar := 0
  scr := ⟨false, false, false⟩
  hcr := ⟨false⟩
  pending := .none
  memS := []
  memNS := []
  memHyp := []
  stored := []
  inputs := []
  draws := 0

end Sys2Proof.Machine
end

