-- ==== Sys2Proof/Machine/Flags.lean ====
section
/-! DEFINITION. What the instructions read and write in a status register: the condition flags (spec/30_encoding.md
R57), the IT bits (spec/10_state.md R17), the mask bits (spec/41_handler_support.md R71), and the 32-bit layout that
SRS stores (R16, general knowledge there: notes/assumptions/7.md). No instruction in scope writes a condition flag. -/

namespace Sys2Proof.Machine

/-- Whether a condition field passes. R57 has the field, R65 that a failed condition does nothing; the table of
conditions is the family's (PRESUMED, notes/assumptions/13.md). -/
def condPasses (cond : BitVec 4) (p : PSR) : Bool :=
  match cond.toNat with
  | 0 => p.z
  | 1 => !p.z
  | 2 => p.c
  | 3 => !p.c
  | 4 => p.n
  | 5 => !p.n
  | 6 => p.v
  | 7 => !p.v
  | 8 => p.c && !p.z
  | 9 => !p.c || p.z
  | 10 => p.n == p.v
  | 11 => p.n != p.v
  | 12 => !p.z && (p.n == p.v)
  | 13 => p.z || (p.n != p.v)
  | _ => true

/-- The IT bits past the instruction just completed (R17). They are unchanged outside an If-Then block (G17: zero
there) and in ARM state; inside one their advance is free (notes/assumptions/15.md). -/
def itNext (p : PSR) : BitVec 8 :=
  if p.iset = .arm ∨ p.it = 0#8 then p.it else Config.itAdvance p.it

/-- The mask part of CPS: `imod == '10'` clears the selected bits, `'11'` sets them (R71). -/
def cpsMasks (imod : BitVec 2) (sel masks : Masks) : Masks :=
  if imod = 0b10#2 then masks.diff sel
  else if imod = 0b11#2 then masks.union sel
  else masks

/-- `J:T` (R16). -/
def jtOfISet : ISet → Bool × Bool
  | .arm => (false, false)
  | .thumb => (false, true)
  | .jazelle => (true, false)
  | .thumbEE => (true, true)

/-- The instruction set `J:T` names (R16). -/
def isetOfJT (j t : Bool) : ISet :=
  match j, t with
  | false, false => .arm
  | false, true => .thumb
  | true, false => .jazelle
  | true, true => .thumbEE

/-- A status register as a word (layout of R16). -/
def psrWord (p : PSR) : Word :=
  BitVec.ofBool p.n ++ BitVec.ofBool p.z ++ BitVec.ofBool p.c ++ BitVec.ofBool p.v ++ BitVec.ofBool p.q
    ++ p.it.extractLsb' 0 2 ++ BitVec.ofBool (jtOfISet p.iset).1 ++ p.res ++ p.ge
    ++ p.it.extractLsb' 2 6 ++ BitVec.ofBool p.e ++ BitVec.ofBool p.masks.a ++ BitVec.ofBool p.masks.i
    ++ BitVec.ofBool p.masks.f ++ BitVec.ofBool (jtOfISet p.iset).2 ++ p.mode.bits

/-- The status register a word stands for; none where bits [4:0] name no mode (layout of R16). -/
def psrOfWord (w : Word) : Option PSR :=
  (Mode.ofBits (w.extractLsb' 0 5)).map fun mode =>
    { n := w.getLsbD 31, z := w.getLsbD 30, c := w.getLsbD 29, v := w.getLsbD 28, q := w.getLsbD 27
      res := w.extractLsb' 20 4, ge := w.extractLsb' 16 4
      it := w.extractLsb' 10 6 ++ w.extractLsb' 25 2
      iset := isetOfJT (w.getLsbD 24) (w.getLsbD 5)
      e := w.getLsbD 9
      masks := ⟨w.getLsbD 8, w.getLsbD 7, w.getLsbD 6⟩
      mode := mode }

end Sys2Proof.Machine
end

