-- ==== Sys2Proof/Machine/Params.lean ====
section
/-! DEFINITION. The open functions of spec/00_scope.md R6 that read the state: opaque constants, so that a claim
holds for every choice of them (notes/assumptions/2.md). `s` is the state before entry (R110). -/

namespace Sys2Proof

/-- `Route(e, s)` where R94 to R101 leave it free (R93, D7): the raw answer, which `Machine.route` cuts down to
the routes those rules allow. -/
opaque Config.route (e : Exc) (s : Machine.State) : Route

/-- `EntryMask(e, m, s)` (R116, D4). -/
opaque Config.entryMask (e : Exc) (m : Mode) (s : Machine.State) : Masks

/-- `EntryISet(m, s)` (R117, D5). -/
opaque Config.entryISet (m : Mode) (s : Machine.State) : ISet

/-- `EntryEndian(m, s)` (R118, D6). -/
opaque Config.entryEndian (m : Mode) (s : Machine.State) : Bool

/-- `Masked(e, s)` (R107, D9); asynchronous exceptions only. -/
opaque Config.masked (e : AsyncExc) (s : Machine.State) : Bool

/-- Whether a misaligned data access at `a` aborts (R47: neither may be assumed, notes/assumptions/21.md). -/
opaque Config.misalignedAborts (a : Word) (s : Machine.State) : Bool

end Sys2Proof
end

