-- ==== Sys2Proof/Machine/Ops.lean ====
section
/-! DEFINITION. The shared operations: memory, security state, vector tables, taking an exception, returning from
one, reset (spec/20_memory.md, spec/60_exceptions.md, spec/70_reset_and_hazards.md). -/

namespace Sys2Proof.Machine

/-! ### Memory (R40 to R49) -/

/-- The canonical form, from address `lo` on: addresses strictly rising and below 2^32. No entry can equal what
an unlisted address reads as, since an unlisted address has no value (notes/assumptions/6.md). -/
def Memory.wfFrom : Nat → Memory → Bool
  | _, [] => true
  | lo, (k, _) :: r => decide (lo ≤ k) && decide (k < 4294967296) && Memory.wfFrom (k + 1) r

/-- The canonical form of an address space. -/
def Memory.wf (m : Memory) : Bool := Memory.wfFrom 0 m

/-- What an address that nothing has written reads as: no value (notes/assumptions/6.md). -/
def unlistedByte : Option Byte := none

/-- The byte at an address, if anything has written it. -/
def Memory.read : Memory → Word → Option Byte
  | [], _ => unlistedByte
  | (k, v) :: r, a => if k = a.toNat then some v else Memory.read r a

/-- The address space with one byte written. Every address is plain memory: it keeps what is written, and no access has
a side effect. R44 leaves where memory exists to the platform (DESIGN CHOICE, notes/assumptions/46.md). -/
def Memory.write : Memory → Word → Byte → Memory
  | [], a, b => [(a.toNat, b)]
  | (k, v) :: r, a, b =>
    if a.toNat < k then (a.toNat, b) :: (k, v) :: r
    else if a.toNat = k then (k, b) :: r
    else (k, v) :: Memory.write r a b

/-- Bytes written at consecutive addresses, modulo 2^32 (R7). Memory is byte-invariant: an access of another width
sees these single bytes, which R46 leaves open (DESIGN CHOICE, notes/assumptions/45.md). -/
def Memory.writeBytes (m : Memory) (a : Word) : List Byte → Memory
  | [] => m
  | b :: bs => Memory.writeBytes (m.write a b) (a + 1) bs

/-- `MemWrite(a, 4, w)` in a byte order (R7, R46). -/
def Memory.writeWord (m : Memory) (o : Endian) (a w : Word) : Memory := m.writeBytes a (bytesOfWord o w)

/-- `MemRead(a, n)`: the bytes at `a`, or the first address that nothing has written (R7). -/
def Memory.readBytes (m : Memory) (a : Word) : Nat → Except Word (List Byte)
  | 0 => .ok []
  | n + 1 =>
    match m.read a with
    | none => .error a
    | some b => (m.readBytes (a + 1) n).map (b :: ·)

/-- One address space of the state. -/
def State.mem (s : State) : Regime → Memory
  | .securePL1 => s.memS
  | .nonsecurePL1 => s.memNS
  | .pl2 => s.memHyp

/-- The state with one address space replaced. -/
def State.setMem (s : State) (r : Regime) (m : Memory) : State :=
  match r with
  | .securePL1 => { s with memS := m }
  | .nonsecurePL1 => { s with memNS := m }
  | .pl2 => { s with memHyp := m }

/-- The addresses stored to, with the `n` at `a` added. -/
def markStored (l : List (Regime × Word)) (r : Regime) (a : Word) : Nat → List (Regime × Word)
  | 0 => l
  | n + 1 => markStored (if (r, a) ∈ l then l else (r, a) :: l) r (a + 1) n

/-- A store by the program: the bytes in memory, and the record of where (R53). It completes at every address and has
no side effect, which R44 leaves to the platform (DESIGN CHOICE, notes/assumptions/46.md). -/
def State.store (s : State) (r : Regime) (a : Word) (bs : List Byte) : State :=
  { s.setMem r ((s.mem r).writeBytes a bs) with stored := markStored s.stored r a bs.length }

/-- The byte order of data, `BYTE_ORDER(CPSR.E)` (R46). -/
def State.dataOrder (s : State) : Endian := if s.cpsr.e then s.impl.orderE1 else s.impl.orderE0

/-- The byte order of instruction fetch: whether it follows `CPSR.E` is the implementation's (R46, D11,
notes/assumptions/10.md). -/
def State.fetchOrder (s : State) : Endian := if s.cpsr.e then s.impl.fetchE1 else s.impl.fetchE0

/-! ### Security state and modes (R13, R15) -/

/-- `IsSecure(s)` (R15, D15). -/
def State.isSecure (s : State) : Bool := !s.impl.secExt || s.cpsr.mode == .monitor || !s.scr.ns

/-- The address space the current mode sees (R41). -/
def State.regime (s : State) : Regime :=
  if s.cpsr.mode = .hyp then .pl2 else if s.isSecure then .securePL1 else .nonsecurePL1

/-- Whether a mode exists in this configuration (R13). -/
def Impl.hasMode (c : Impl) : Mode → Bool
  | .monitor => c.secExt
  | .hyp => c.virtExt
  | .user | .fiq | .irq | .supervisor | .abort | .undefined | .system => true

/-- Whether a mode exists in a security state: Monitor is Secure only, Hyp Non-secure only (R13). -/
def Mode.inSecurity (secure : Bool) : Mode → Bool
  | .monitor => secure
  | .hyp => !secure
  | .user | .fiq | .irq | .supervisor | .abort | .undefined | .system => true

/-- The stack pointer of a mode; User and System share one (R12, notes/assumptions/9.md). -/
def State.spOf (s : State) (m : Mode) : Word :=
  match m.excMode with
  | some x => s.sp.get x
  | none => s.spUsr

/-- The state with the stack pointer of a mode replaced. -/
def State.setSp (s : State) (m : Mode) (w : Word) : State :=
  match m.excMode with
  | some x => { s with sp := s.sp.set x w }
  | none => { s with spUsr := w }

/-- The copy of SCTLR of a security state (R18, R19). -/
def State.sctlr (s : State) (secure : Bool) : Sctlr := if secure then s.sctlrS else s.sctlrNS

/-- The copy of VBAR of a security state (R20). -/
def State.vbar (s : State) (secure : Bool) : Word := if secure then s.vbarS else s.vbarNS

/-! ### Vector tables (R88 to R92, R96 to R98, R102) -/

/-- `ExcVectorBase()` with the copies of one security state (R92). -/
def excVectorBase (s : State) (secure : Bool) : Word :=
  if (s.sctlr secure).v then 0xFFFF0000#32
  else if s.impl.secExt then s.vbar secure
  else 0#32

/-- `PL1Mode` (Table B1-4, R94): the mode of an exception taken to a PL1 mode other than Monitor. -/
def pl1Mode : Exc → Option ExcMode
  | .reset => some .supervisor
  | .undefinedInstruction => some .undefined
  | .supervisorCall => some .supervisor
  | .prefetchAbort => some .abort
  | .dataAbort => some .abort
  | .irq => some .irq
  | .fiq => some .fiq
  | .virtualAbort => some .abort
  | .virtualIRQ => some .irq
  | .virtualFIQ => some .fiq
  | .secureMonitorCall | .hypervisorCall | .hypTrap => none

/-- `OffPL1` (R96, R102): the offset in the Secure, the Non-secure and the single vector table. -/
def offPL1 : Exc → Option Word
  | .reset => some 0x00#32
  | .undefinedInstruction => some 0x04#32
  | .supervisorCall => some 0x08#32
  | .prefetchAbort => some 0x0C#32
  | .dataAbort | .virtualAbort => some 0x10#32
  | .irq | .virtualIRQ => some 0x18#32
  | .fiq | .virtualFIQ => some 0x1C#32
  | .secureMonitorCall | .hypervisorCall | .hypTrap => none

/-- `OffMon` (R98): the offset in the Monitor vector table. -/
def offMon : Exc → Option Word
  | .secureMonitorCall => some 0x08#32
  | .prefetchAbort => some 0x0C#32
  | .dataAbort => some 0x10#32
  | .irq => some 0x18#32
  | .fiq => some 0x1C#32
  | .reset | .undefinedInstruction | .supervisorCall | .hypervisorCall | .hypTrap | .virtualAbort
  | .virtualIRQ | .virtualFIQ => none

/-- `OffHyp` (R97): the offset in the Hyp vector table. SVC from Hyp mode has the offset the implementation
gives, if any (D21). -/
def offHyp (c : Impl) (e : Exc) (fromHyp : Bool) : Option Word :=
  match e with
  | .hypTrap => some 0x14#32
  | .irq => some 0x18#32
  | .fiq => some 0x1C#32
  | .undefinedInstruction => some (if fromHyp then 0x04#32 else 0x14#32)
  | .hypervisorCall => some (if fromHyp then 0x08#32 else 0x14#32)
  | .prefetchAbort => some (if fromHyp then 0x0C#32 else 0x14#32)
  | .dataAbort => some (if fromHyp then 0x10#32 else 0x14#32)
  | .supervisorCall =>
    if fromHyp then c.svcFromHyp.map fun k => BitVec.ofNat 32 (4 * (k.val + 1)) else some 0x14#32
  | .reset | .secureMonitorCall | .virtualAbort | .virtualIRQ | .virtualFIQ => none

/-- The premise of R43: a vector base is a multiple of 32. -/
def baseAligned (base : Word) : Bool := base.extractLsb' 0 5 == 0#5

/-- Whether the program has stored to one of the 32 bytes at `base` of an address space since launch (R53). -/
def tableStored (s : State) (r : Regime) (base : Word) : Bool :=
  s.stored.any fun p => p.1 == r && decide ((p.2 - base).toNat < 32)

/-- The two premises of entry through the table at `base`: the base is a multiple of 32 (R43), and the table is as it
was at launch (R53). -/
def tableReady (s : State) (r : Regime) (base : Word) : Bool := baseAligned base && !tableStored s r base

/-- `VectorAddr` (R43): base plus offset modulo 2^32, refused where the table has no entry, the base breaks the premise
of R43, or the table has been stored to (R53). -/
def tableVector (s : State) (r : Regime) (e : Exc) (base : Word) (off : Option Word) : Except Refusal Word :=
  match off with
  | none => .error (.noSuchException e)
  | some o =>
    if !baseAligned base then .error (.unalignedVectorBase base)
    else if tableStored s r base then .error (.vectorTableStored base)
    else .ok (base + o)

/-- The address space of the table `ExcVectorBase()` is the base of (R41). -/
def tableRegime (secure : Bool) : Regime := if secure then .securePL1 else .nonsecurePL1

/-- The bases of the vector tables in one address space (R41, R44). -/
def tableBases (s : State) : Regime → List Word
  | .securePL1 => excVectorBase s true :: (if s.impl.secExt then [s.mvbar] else [])
  | .nonsecurePL1 => [excVectorBase s false]
  | .pl2 => [s.hvbar]

/-- Whether one of the `n` bytes at `a` lies in a vector table of the address space: 32 bytes from each base
(R44, R53). -/
def hitsVectorTable (s : State) (r : Regime) (a : Word) (n : Nat) : Bool :=
  (tableBases s r).any fun base =>
    (List.range n).any fun k => decide ((a + BitVec.ofNat 32 k - base).toNat < 32)

/-! ### Taking an exception (R93 to R122) -/

/-- What entry needs from the instruction stream (R111): the preferred return address and the IT bits correct for
it. -/
structure Ctx where
  prefReturn : Word
  itAtPref : BitVec 8
  deriving DecidableEq, Repr

/-- Hyp routing needs the Virtualization Extensions and a Non-secure state (R93, R100). -/
def State.hypPossible (s : State) : Bool := s.impl.virtExt && !s.isSecure

/-- `Route` where the rules leave it free, among the routes that R95 and the configuration allow (R93, D7). -/
def freeRoute (e : Exc) (s : State) (monitorOk hypOk : Bool) : Route :=
  if !monitorOk && !hypOk then .pl1
  else
    match Config.route e s with
    | .pl1 => .pl1
    | .monitor => if monitorOk then .monitor else .pl1
    | .hyp => if hypOk then .hyp else .pl1

/-- `Route(e, s)`, step 1 of entry (R93 to R101). -/
def route (e : Exc) (s : State) : Except Refusal Route :=
  match e with
  | .reset => .error .resetIsNoEntry
  | .undefinedInstruction => .ok (freeRoute e s false s.hypPossible)
  | .supervisorCall =>
    if s.cpsr.mode = .hyp then
      if s.impl.svcFromHyp.isSome then .ok .hyp else .error .svcInHyp
    else if s.hypPossible && s.cpsr.mode == .user && s.hcr.tge then .ok .hyp
    else .ok .pl1
  | .secureMonitorCall => if s.impl.secExt then .ok .monitor else .error (.noSuchException e)
  | .hypervisorCall | .hypTrap => if s.hypPossible then .ok .hyp else .error (.noSuchException e)
  | .prefetchAbort | .dataAbort => .ok (freeRoute e s s.impl.secExt s.hypPossible)
  | .irq => if s.impl.secExt && s.scr.irq then .ok .monitor else .ok (freeRoute e s false s.hypPossible)
  | .fiq => if s.impl.secExt && s.scr.fiq then .ok .monitor else .ok (freeRoute e s false s.hypPossible)
  | .virtualAbort | .virtualIRQ | .virtualFIQ =>
    if s.hypPossible && s.cpsr.mode != .hyp then .ok .pl1 else .error (.noSuchException e)

/-- `TargetMode(e, s)` (R93). -/
def targetMode (e : Exc) (s : State) : Except Refusal ExcMode :=
  match route e s with
  | .error r => .error r
  | .ok .monitor => .ok .monitor
  | .ok .hyp => .ok .hyp
  | .ok .pl1 =>
    match pl1Mode e with
    | some m => .ok m
    | none => .error (.noSuchException e)

/-- `LinkOffset(e, pl, iset)` (R112). -/
def linkOffset (e : Exc) (pl : PL) (iset : ISet) : Word :=
  match pl with
  | .pl2 => BitVec.ofNat 32 (Config.linkOffsetPL2 e)
  | .pl1 | .pl0 => BitVec.ofNat 32 (Config.linkOffsetPL1 e iset)

/-- `SCR.NS` after step 4: cleared by an exception taken from Monitor mode (R114). -/
def nsAfterEntry (s : State) : Bool :=
  if s.impl.secExt && s.cpsr.mode == .monitor then false else s.scr.ns

/-- The security state whose SCTLR and VBAR entry to a PL1 mode other than Monitor uses: the state after step 4
(R92). -/
def entrySecure (s : State) : Bool := !s.impl.secExt || !nsAfterEntry s

/-- Whether the interrupt controller supplies the vector (R104, R105). -/
def isVectored (e : Exc) (tgt : ExcMode) (s : State) : Bool :=
  (e == .irq || e == .fiq) && (tgt != .monitor && tgt != .hyp) && s.impl.vecIrq
    && (s.sctlr (entrySecure s)).ve

/-- Whether a virtual interrupt meets the case D22 refuses (R105). -/
def virtualVectored (e : Exc) (s : State) : Bool :=
  (e == .virtualIRQ || e == .virtualFIQ) && s.impl.vecIrq && s.sctlrNS.ve

/-- `VectorAddress(e, tgt, fromHyp)`, step 6 (R120). -/
def vectorAddress (e : Exc) (tgt : ExcMode) (s : State) : Except Refusal Word :=
  match tgt with
  | .monitor => tableVector s .securePL1 e s.mvbar (offMon e)
  | .hyp => tableVector s .pl2 e s.hvbar (offHyp s.impl e (s.cpsr.mode == .hyp))
  | .supervisor | .undefined | .abort | .irq | .fiq =>
    if isVectored e tgt s then .ok (Config.vectoredAddr e s.draws)
    else if virtualVectored e s then .error .virtualInterruptVectored
    else tableVector s (tableRegime (entrySecure s)) e (excVectorBase s (entrySecure s)) (offPL1 e)

/-- The CPSR for the handler, step 5: exactly these five parts change (R115 to R118, D4). -/
def entryCpsr (e : Exc) (tgt : ExcMode) (s : State) : PSR :=
  { s.cpsr with
    mode := tgt.toMode
    masks := s.cpsr.masks.union (Config.entryMask e tgt.toMode s)
    iset := Config.entryISet tgt.toMode s
    e := Config.entryEndian tgt.toMode s
    it := 0#8 }

/-- Steps 2 to 6 of entry to mode `tgt` at vector `vec` (R110). A vectored entry uses up one draw. -/
def enter (e : Exc) (ctx : Ctx) (tgt : ExcMode) (vec : Word) (s : State) : State :=
  { s with
    link := s.link.set tgt (ctx.prefReturn + linkOffset e tgt.pl s.cpsr.iset)
    spsr := s.spsr.set tgt { s.cpsr with it := ctx.itAtPref }
    scr := { s.scr with ns := nsAfterEntry s }
    cpsr := entryCpsr e tgt s
    pc := vec
    draws := if isVectored e tgt s then s.draws + 1 else s.draws }

/-- `TakeException(e, ctx)` (R110): one atomic step (R109). -/
def takeException (e : Exc) (ctx : Ctx) (s : State) : Host.Outcome State Fault Refusal :=
  match targetMode e s with
  | .error r => .refused r
  | .ok tgt =>
    match vectorAddress e tgt s with
    | .error r => .refused r
    | .ok vec => .next (enter e ctx tgt vec s)

/-! ### Exception return (R125 to R128) -/

/-- Whether an address is aligned for the instruction set returned to: 4 in ARM state, 2 in Thumb state (R57,
R128); the other two are out of scope (R4). -/
def pcAligned (iset : ISet) (a : Word) : Bool :=
  match iset with
  | .arm => a.extractLsb' 0 2 == 0#2
  | .thumb => a.extractLsb' 0 1 == 0#1
  | .jazelle | .thumbEE => false

/-- The premises of R125 and R128, which a return must meet (D20, notes/assumptions/25.md). -/
def returnCheck (addr : Word) (psr : PSR) (s : State) : Option Refusal :=
  if !(Impl.hasMode s.impl psr.mode && Mode.inSecurity s.isSecure psr.mode) then some .returnMode
  else if s.cpsr.mode.pl.rank < psr.mode.pl.rank then some .returnPrivilege
  else if psr.iset = .jazelle ∨ psr.iset = .thumbEE then some (.isetOutOfScope psr.iset)
  else if !pcAligned psr.iset addr then some .returnAlignment
  else none

/-- `ExceptionReturn(addr, psr)` (R125): the pc and the CPSR at once, and nothing else. -/
def exceptionReturn (addr : Word) (psr : PSR) (s : State) : Host.Outcome State Fault Refusal :=
  match returnCheck addr psr s with
  | some r => .refused r
  | none => .next { s with pc := addr, cpsr := psr }

/-! ### Reset (R33, R140, R141) -/

/-- The state after `TakeReset()` for one draw of everything unspecified, before the pc is loaded. Memory, the
implementation and the model's own fields stay (notes/assumptions/32.md). -/
def resetRegisters (d : ResetDraw) (s : State) : State :=
  { s with
    cpsr :=
      { n := d.n, z := d.z, c := d.c, v := d.v, q := d.q, res := d.res, ge := d.ge, it := 0#8
        iset := d.iset, e := d.e, masks := d.masks, mode := .supervisor }
    spsr := d.spsr
    link := d.link
    sp := d.sp
    spUsr := d.spUsr
    sctlrS := ⟨d.resetV, false⟩
    sctlrNS := ⟨d.sctlrNSV, false⟩
    vbarS := d.resetVbarS
    vbarNS := d.vbarNS
    mvbar := d.mvbar
    hvbar := d.hvbar
    scr := ⟨false, d.scrIrq, d.scrFiq⟩
    hcr := ⟨d.hcrTge⟩
    pending := d.pending }

/-- `TakeReset()` (R140): the pc is the Reset vector of the Secure or only table (R141). -/
def takeReset (d : ResetDraw) (s : State) : Host.Outcome State Fault Refusal :=
  match tableVector s .securePL1 .reset (excVectorBase (resetRegisters d s) true) (offPL1 .reset) with
  | .error r => .refused r
  | .ok vec => .next { resetRegisters d s with pc := vec }

/-! ### Going on to the next instruction -/

/-- The state after an instruction of `n` bytes that goes on in line: the pc and the IT bits advance (R17, R71). -/
def advance (n : Nat) (s : State) : State :=
  { s with pc := s.pc + BitVec.ofNat 32 n, cpsr := { s.cpsr with it := itNext s.cpsr } }

/-- The context of an exception whose preferred return address is the instruction after the one at the pc, which
has `n` bytes (R119, R17). -/
def ctxAfter (n : Nat) (s : State) : Ctx := ⟨s.pc + BitVec.ofNat 32 n, itNext s.cpsr⟩

/-- The context of an exception whose preferred return address is the instruction at the pc, and of one taken at an
instruction boundary, where the pc is the next instruction to execute (R119, R17). -/
def ctxAtPc (s : State) : Ctx := ⟨s.pc, s.cpsr.it⟩

/-- The Undefined Instruction exception at the instruction at the pc (R60, R119). -/
def takeUndefined (s : State) : Host.Outcome State Fault Refusal :=
  takeException .undefinedInstruction (ctxAtPc s) s

end Sys2Proof.Machine
end

