-- ==== Sys2Proof/Machine/Operands.lean ====
section
/-! DEFINITION. The operands of SRS and CPS (spec/41_handler_support.md R70, R71). -/

namespace Sys2Proof.Machine

/-- The mode whose stack an SRS operand names: a PL1 mode that exists here, "at the same privilege level" as the
handler (R70). Monitor mode exists in Secure state only (R13, notes/assumptions/20.md). -/
def srsStackMode (s : State) (bits : BitVec 5) : Option Mode :=
  match Mode.ofBits bits with
  | none => none
  | some m =>
    if m.pl = .pl1 ∧ (Impl.hasMode s.impl m && Mode.inSecurity s.isSecure m) = true then some m else none

/-- The lowest address of the two words SRS stores (R70): DA `base - 4`, DB `base - 8`, IA `base`, IB `base + 4`,
with `P` before and `U` increment. -/
def srsAddress (p u : Bool) (base : Word) : Word :=
  match p, u with
  | false, false => base - 4#32
  | true, false => base - 8#32
  | false, true => base
  | true, true => base + 4#32

/-- The stack pointer SRS writes back (R70): `base - 8` if decrement, else `base + 8`. -/
def srsWriteBack (u : Bool) (base : Word) : Word := if u then base + 8#32 else base - 8#32

/-- The mode CPS changes to: one that exists here and is not User, Monitor or Hyp (R71, D20). -/
def cpsTarget (bits : BitVec 5) : Option Mode :=
  match Mode.ofBits bits with
  | none | some .user | some .monitor | some .hyp => none
  | some m => some m

end Sys2Proof.Machine
end

