-- ==== Sys2Proof/Machine/Calls.lean ====
section
/-! DEFINITION. SVC, SMC and HVC (spec/40_exception_calls.md R65 to R67). The immediates change nothing (R58). -/

namespace Sys2Proof.Machine

/-- The Supervisor Call exception of an SVC of `n` bytes (R65). -/
def supervisorCall (n : Nat) (s : State) : Host.Outcome State Fault Refusal :=
  takeException .supervisorCall (ctxAfter n s) s

/-- SMC of `n` bytes (R66), outside User mode, where "permitted here" fails: refused there (U13, G8,
notes/assumptions/17.md). That it is undefined somewhere is the input `raise` (R60, U14). -/
def secureMonitorCall (n : Nat) (s : State) : Host.Outcome State Fault Refusal :=
  if s.cpsr.mode = .user then .refused .callNotPermitted
  else takeException .secureMonitorCall (ctxAfter n s) s

/-- HVC of `n` bytes (R67): it exists with the Virtualization Extensions only, and "permitted here" fails in Secure
state and in User mode: refused there (U13, G8, notes/assumptions/17.md). -/
def hypervisorCall (n : Nat) (s : State) : Host.Outcome State Fault Refusal :=
  if !s.impl.virtExt then .refused .noSuchInstruction
  else if s.isSecure = true ∨ s.cpsr.mode = .user then .refused .callNotPermitted
  else takeException .hypervisorCall (ctxAfter n s) s

/-- SVC, ARM A1: nothing but the advance of the pc where the condition fails (R65, TV109). -/
def execSvcA1 (cond : BitVec 4) (_imm24 : BitVec 24) (s : State) : Host.Outcome State Fault Refusal :=
  if condPasses cond s.cpsr then supervisorCall s.impl.iLen.svcA1 s else .next (advance s.impl.iLen.svcA1 s)

/-- SVC, Thumb T1: always taken (R65, notes/assumptions/14.md). -/
def execSvcT1 (_imm8 : BitVec 8) (s : State) : Host.Outcome State Fault Refusal :=
  supervisorCall s.impl.iLen.svcT1 s

/-- SMC, ARM A1 (R66); nothing but the advance of the pc where the condition fails (R57, G9). -/
def execSmcA1 (cond : BitVec 4) (_imm4 : BitVec 4) (s : State) : Host.Outcome State Fault Refusal :=
  if !s.impl.secExt then .refused .noSuchInstruction
  else if condPasses cond s.cpsr then secureMonitorCall s.impl.iLen.smcA1 s
  else .next (advance s.impl.iLen.smcA1 s)

/-- SMC, Thumb T1 (R66, notes/assumptions/14.md). -/
def execSmcT1 (_imm4 : BitVec 4) (s : State) : Host.Outcome State Fault Refusal :=
  if !s.impl.secExt then .refused .noSuchInstruction else secureMonitorCall s.impl.iLen.smcT1 s

/-- HVC, ARM A1: unconditional (R57, R67). -/
def execHvcA1 (_imm16 : BitVec 16) (s : State) : Host.Outcome State Fault Refusal :=
  hypervisorCall s.impl.iLen.hvcA1 s

/-- HVC, Thumb T1 (R67). -/
def execHvcT1 (_imm16 : BitVec 16) (s : State) : Host.Outcome State Fault Refusal :=
  hypervisorCall s.impl.iLen.hvcT1 s

end Sys2Proof.Machine
end

