-- ==== Sys2Proof/Machine/Support.lean ====
section
/-! DEFINITION. SRS and CPS (spec/41_handler_support.md R70, R71). -/

namespace Sys2Proof.Machine

/-- The two stores and the write-back of SRS (R70): `LINK[m]` at `a`, `SPSR[m]` at `a + 4`, in the current address
space and data byte order. -/
def storeReturnState (m : ExcMode) (stack : Mode) (a : Word) (back : Option Word) (s : State) : State :=
  let stored :=
    (s.store s.regime a (bytesOfWord s.dataOrder (s.link.get m))).store s.regime (a + 4#32)
      (bytesOfWord s.dataOrder (psrWord (s.spsr.get m)))
  match back with
  | some w => stored.setSp stack w
  | none => stored

/-- SRS of `n` bytes from mode `m` to the stack of mode `stack` (R70). A misaligned store aborts or succeeds, freely
(R47, notes/assumptions/21.md); a store into a vector table is refused (R53). -/
def srsStore (n : Nat) (p u w : Bool) (m : ExcMode) (stack : Mode) (s : State) : Host.Outcome State Fault Refusal :=
  let base := s.spOf stack
  let a := srsAddress p u base
  if a.extractLsb' 0 2 ≠ 0#2 ∧ Config.misalignedAborts a s = true then
    takeException .dataAbort (ctxAtPc s) s
  else if hitsVectorTable s s.regime a 8 then .refused (.vectorTableStore a)
  else .next (advance n (storeReturnState m stack a (if w then some (srsWriteBack u base) else none) s))

/-- SRS of `n` bytes (R70): for the handler of an exception taken to a PL1 mode. In Hyp mode it is undefined, in User
and System mode unpredictable (G9, notes/assumptions/18.md). -/
def storeReturn (n : Nat) (p u w : Bool) (mode : BitVec 5) (s : State) : Host.Outcome State Fault Refusal :=
  match s.cpsr.mode.excMode with
  | none => .refused .srsNoReturnState
  | some .hyp => takeUndefined s
  | some m =>
    match srsStackMode s mode with
    | none => .refused (.srsStackMode mode)
    | some stack => srsStore n p u w m stack s

/-- CPS of `n` bytes (R71): nothing in User mode; in a PL1 or PL2 mode the mask part, then the mode part, refused by its
target only (D20, notes/assumptions/24.md). -/
def changeState (n : Nat) (imod : BitVec 2) (m : Bool) (sel : Masks) (mode : BitVec 5) (s : State) :
    Host.Outcome State Fault Refusal :=
  if s.cpsr.mode = .user then .next (advance n s)
  else
    let masks := cpsMasks imod sel s.cpsr.masks
    if m then
      match cpsTarget mode with
      | none => .refused (.cpsTarget mode)
      | some t => .next (advance n { s with cpsr := { s.cpsr with masks := masks, mode := t } })
    else .next (advance n { s with cpsr := { s.cpsr with masks := masks } })

/-- SRS, ARM A1: the four addressing modes by `P` and `U` (R57, R70). -/
def execSrsA1 (p u w : Bool) (mode : BitVec 5) (s : State) : Host.Outcome State Fault Refusal :=
  storeReturn s.impl.iLen.srsA1 p u w mode s

/-- SRSDB, Thumb T1 (R57, R70). -/
def execSrsT1 (w : Bool) (mode : BitVec 5) (s : State) : Host.Outcome State Fault Refusal :=
  storeReturn s.impl.iLen.srsT1 true false w mode s

/-- SRSIA, Thumb T2 (R57, R70). -/
def execSrsT2 (w : Bool) (mode : BitVec 5) (s : State) : Host.Outcome State Fault Refusal :=
  storeReturn s.impl.iLen.srsT2 false true w mode s

/-- CPS, ARM A1 (R57, R71). -/
def execCpsA1 (imod : BitVec 2) (m a i f : Bool) (mode : BitVec 5) (s : State) :
    Host.Outcome State Fault Refusal :=
  changeState s.impl.iLen.cpsA1 imod m ⟨a, i, f⟩ mode s

/-- CPS, Thumb T1: mask bits only; `im` 0 enables, 1 disables (R57, R71). -/
def execCpsT1 (im a i f : Bool) (s : State) : Host.Outcome State Fault Refusal :=
  changeState s.impl.iLen.cpsT1 (if im then 0b11#2 else 0b10#2) false ⟨a, i, f⟩ 0#5 s

/-- CPS, Thumb T2 (R57, R71). -/
def execCpsT2 (imod : BitVec 2) (m a i f : Bool) (mode : BitVec 5) (s : State) :
    Host.Outcome State Fault Refusal :=
  changeState s.impl.iLen.cpsT2 imod m ⟨a, i, f⟩ mode s

end Sys2Proof.Machine
end

