-- ==== Sys2Proof/Machine/Dispatch.lean ====
section
/-! DEFINITION. The dispatch: one arm per row of spec/opcode_table.json. -/

namespace Sys2Proof.Machine

def exec (i : Instr) (s : State) : Host.Outcome State Fault Refusal :=
  match i with
  | .svcA1 cond imm24 => Sys2Proof.Machine.execSvcA1 cond imm24 s
  | .svcT1 imm8 => Sys2Proof.Machine.execSvcT1 imm8 s
  | .smcA1 cond imm4 => Sys2Proof.Machine.execSmcA1 cond imm4 s
  | .smcT1 imm4 => Sys2Proof.Machine.execSmcT1 imm4 s
  | .hvcA1 imm16 => Sys2Proof.Machine.execHvcA1 imm16 s
  | .hvcT1 imm16 => Sys2Proof.Machine.execHvcT1 imm16 s
  | .srsA1 p u w mode => Sys2Proof.Machine.execSrsA1 p u w mode s
  | .srsT1 w mode => Sys2Proof.Machine.execSrsT1 w mode s
  | .srsT2 w mode => Sys2Proof.Machine.execSrsT2 w mode s
  | .cpsA1 imod m a i2 f mode => Sys2Proof.Machine.execCpsA1 imod m a i2 f mode s
  | .cpsT1 im a i2 f => Sys2Proof.Machine.execCpsT1 im a i2 f s
  | .cpsT2 imod m a i2 f mode => Sys2Proof.Machine.execCpsT2 imod m a i2 f mode s

end Sys2Proof.Machine
end

