-- ==== Sys2Proof/Machine/Environment.lean ====
section
/-! DEFINITION. What happens at an instruction boundary besides the five instructions: asynchronous exceptions
(spec/60_exceptions.md R106 to R109), the environment's inputs (spec/10_state.md R29), the abstract `Execute`
(spec/00_scope.md R5), and the fetch of an instruction. -/

namespace Sys2Proof.Machine

/-! ### Asynchronous exceptions -/

/-- Membership in `Pending` (R29). -/
def Pending.has (p : Pending) : AsyncExc → Bool
  | .irq => p.irq
  | .fiq => p.fiq
  | .virtualIRQ => p.virtualIRQ
  | .virtualFIQ => p.virtualFIQ
  | .virtualAbort => p.virtualAbort

/-- Whether an asynchronous exception may be taken now: pending and not masked (R107); a virtual one only in a
Non-secure mode other than Hyp of an implementation that has it (R101). -/
def takeable (s : State) (x : AsyncExc) : Bool :=
  s.pending.has x && (!x.isVirtual || (s.hypPossible && s.cpsr.mode != .hyp)) && !Config.masked x s

/-- Whether any asynchronous exception may be taken now. -/
def anyTakeable (s : State) : Bool :=
  takeable s .irq || takeable s .fiq || takeable s .virtualIRQ || takeable s .virtualFIQ
    || takeable s .virtualAbort

/-- The asynchronous exception taken at this boundary, if any: a free choice among those that may be taken, or
none of them (R108, R146, notes/assumptions/29.md). -/
def chosenAsync (s : State) : Option AsyncExc :=
  if anyTakeable s then
    match Config.asyncChoice s.draws with
    | some x => if takeable s x then some x else none
    | none => none
  else none

/-- The state once the choice is made: a choice uses up one draw. -/
def afterChoice (s : State) : State := if anyTakeable s then { s with draws := s.draws + 1 } else s

/-! ### The abstract Execute -/

/-- One copy of SCTLR with a bit replaced; the Non-secure copy exists with the Security Extensions only (R18). -/
def writeSctlr (ns : Bool) (f : Sctlr → Sctlr) (s : State) : Except Refusal State :=
  if ns then
    if s.impl.secExt then .ok { s with sctlrNS := f s.sctlrNS } else .error .noSuchRegister
  else .ok { s with sctlrS := f s.sctlrS }

/-- What `SCTLR.VE` holds after software writes `b`: `b` with the vectored-interrupt hardware; without it a written 1 is
held or not, freely (R19, U2, notes/assumptions/47.md). -/
def veAfterWrite (c : Impl) (b : Bool) : Bool := if c.vecIrq then b else b && Config.veHeldWithoutHardware

/-- Whether a configuration has an address space (R41). -/
def Impl.hasRegime (c : Impl) : Regime → Bool
  | .securePL1 => true
  | .nonsecurePL1 => c.secExt
  | .pl2 => c.virtExt

/-- One write of an instruction outside the five (R5, D1, notes/assumptions/34.md). Refused are only what the
configuration lacks (R13, R20 to R25, R41), a store into a vector table (R53), and clearing `SCR.NS` in Hyp mode, which
would leave Hyp mode in Secure state (R13). -/
def applyWrite (w : RegWrite) (s : State) : Except Refusal State :=
  match w with
  | .cpsrFlags n z c v q ge =>
    .ok { s with cpsr := { s.cpsr with n := n, z := z, c := c, v := v, q := q, ge := ge } }
  | .cpsrRes res => .ok { s with cpsr := { s.cpsr with res := res } }
  | .cpsrIt it => .ok { s with cpsr := { s.cpsr with it := it } }
  | .cpsrISet iset => .ok { s with cpsr := { s.cpsr with iset := iset } }
  | .cpsrE e => .ok { s with cpsr := { s.cpsr with e := e } }
  | .cpsrMasks masks => .ok { s with cpsr := { s.cpsr with masks := masks } }
  | .spsr m p =>
    if Impl.hasMode s.impl m.toMode then .ok { s with spsr := s.spsr.set m p } else .error .noSuchRegister
  | .link m x =>
    if Impl.hasMode s.impl m.toMode then .ok { s with link := s.link.set m x } else .error .noSuchRegister
  | .sp k x => if Impl.hasMode s.impl k then .ok (s.setSp k x) else .error .noSuchRegister
  | .sctlrV ns b => writeSctlr ns (fun r => { r with v := b }) s
  | .sctlrVE ns b => writeSctlr ns (fun r => { r with ve := veAfterWrite s.impl b }) s
  | .vbar ns x =>
    if !s.impl.secExt then .error .noSuchRegister
    else if ns then .ok { s with vbarNS := x }
    else .ok { s with vbarS := x }
  | .mvbar x => if s.impl.secExt then .ok { s with mvbar := x } else .error .noSuchRegister
  | .hvbar x => if s.impl.virtExt then .ok { s with hvbar := x } else .error .noSuchRegister
  | .scrNS b =>
    if !s.impl.secExt then .error .noSuchRegister
    else if s.cpsr.mode == .hyp && !b then .error .hypModeIsNonsecure
    else .ok { s with scr := { s.scr with ns := b } }
  | .scrIRQ b =>
    if s.impl.secExt then .ok { s with scr := { s.scr with irq := b } } else .error .noSuchRegister
  | .scrFIQ b =>
    if s.impl.secExt then .ok { s with scr := { s.scr with fiq := b } } else .error .noSuchRegister
  | .hcrTGE b => if s.impl.virtExt then .ok { s with hcr := ⟨b⟩ } else .error .noSuchRegister
  | .store r a b =>
    if !Impl.hasRegime s.impl r then .error .noSuchAddressSpace
    else if hitsVectorTable s r a 1 then .error (.vectorTableStore a)
    else .ok (s.store r a [b])

/-- The writes of one instruction, in order. -/
def applyWrites : List RegWrite → State → Except Refusal State
  | [], s => .ok s
  | w :: ws, s =>
    match applyWrite w s with
    | .error r => .error r
    | .ok s' => applyWrites ws s'

/-! ### Fetch -/

/-- What the fetch at the pc finds. -/
inductive Fetched where
  | instr (i : Instr)
  | fault (r : Fault)
  | refused (r : Refusal)
  deriving DecidableEq, Repr

/-- The bytes of the instruction at the pc, read from the current address space: four in ARM state; in Thumb state two,
and two more where the first halfword starts a 32-bit instruction (R57), in the fetch order (R46). -/
def fetchBytes (s : State) : Except Word (List Byte) :=
  match s.cpsr.iset with
  | .thumb =>
    match (s.mem s.regime).readBytes s.pc 2 with
    | .error a => .error a
    | .ok [b0, b1] =>
      if isThumb32 (halfOfBytes s.fetchOrder b0 b1) then (s.mem s.regime).readBytes s.pc 4
      else .ok [b0, b1]
    | .ok bs => .ok bs
  | .arm | .jazelle | .thumbEE => (s.mem s.regime).readBytes s.pc 4

/-- The instruction at the pc, in the current instruction set state (R45, R56, R57). What is none of the five is
refused: it is neither defined nor undefined (R59, D1). -/
def fetch (s : State) : Fetched :=
  if s.cpsr.iset = .jazelle ∨ s.cpsr.iset = .thumbEE then .refused (.isetOutOfScope s.cpsr.iset)
  else if !pcAligned s.cpsr.iset s.pc then .refused (.misalignedFetch s.pc)
  else
    match fetchBytes s with
    | .error a => .fault (.unwrittenFetch a)
    | .ok bs =>
      match decode s.cpsr.iset s.fetchOrder bs with
      | .error _ => .refused .outsideTheFive
      | .ok (i, _) => .instr i

/-- The state with the bytes of an instruction loaded at the pc, where the fetch reads: program text from outside, no
store by the program (notes/assumptions/37.md). -/
def State.withBytesAtPc (s : State) (bs : List Byte) : State :=
  s.setMem s.regime ((s.mem s.regime).writeBytes s.pc bs)

end Sys2Proof.Machine
end

