-- ==== Sys2Proof/Machine/Step.lean ====
section
/-! DEFINITION. One step: the environment's input at this instruction boundary, or an asynchronous exception, or one
instruction (spec/00_scope.md R5, spec/60_exceptions.md R106 to R109). -/

namespace Sys2Proof.Machine

/-- The instruction at the pc. -/
def runInstr (s : State) : Host.Outcome State Fault Refusal :=
  match fetch s with
  | .instr i => exec i s
  | .fault r => .fault r
  | .refused r => .refused r

/-- The machine by itself at an instruction boundary: the asynchronous exception chosen, if any (R107, R108, its
preferred return address the next instruction to execute, R119), else the instruction at the pc. -/
def runBoundary (s : State) : Host.Outcome State Fault Refusal :=
  match chosenAsync s with
  | some x => takeException x.toExc (ctxAtPc s) (afterChoice s)
  | none => runInstr (afterChoice s)

/-- What one input does (notes/assumptions/4.md). -/
def applyInput (i : Input) (s : State) : Host.Outcome State Fault Refusal :=
  match i with
  | .quiet => runBoundary s
  | .pending p => .next { s with pending := p }
  | .reset d => takeReset d s
  | .raise c => takeException c.toExc (ctxAtPc s) s
  | .ret addr psr => exceptionReturn addr psr s
  | .execute ws next =>
    match applyWrites ws s with
    | .error r => .refused r
    | .ok s' => .next { s' with pc := next }

/-- One step. -/
def step (s : State) : Host.Outcome State Fault Refusal :=
  match s.inputs with
  | [] => runBoundary s
  | i :: rest => applyInput i { s with inputs := rest }

/-- The state whose very next step runs the instruction of a table row's bits: the instruction set state is the row's,
the bytes stand at the pc, and nothing comes from outside (notes/assumptions/37.md, 38.md). -/
def State.withFetchWord (s : State) (nbits w : Nat) : State :=
  let s' : State :=
    { s with
      cpsr := { s.cpsr with iset := (codeOfTableWord nbits w).iset }
      pending := .none
      inputs := [] }
  s'.withBytesAtPc (bytesOfTableWord s.fetchOrder nbits w)

end Sys2Proof.Machine
end

