-- ==== Sys2Proof/Safety.lean ====
section
/-! DEFINITION. The terms in which claims speak of a good state, of a completed step, and of what a step leaves
unchanged. -/

namespace Sys2Proof.Machine

/-- A legal state: the implementation meets R2; the current mode exists (R13); Hyp mode is Non-secure (R13); every
address space is in canonical form. -/
def Legal (s : State) : Prop :=
  s.impl.legal = true ∧ Impl.hasMode s.impl s.cpsr.mode = true ∧ (s.cpsr.mode = .hyp → s.scr.ns = true)
    ∧ Memory.wf s.memS = true ∧ Memory.wf s.memNS = true ∧ Memory.wf s.memHyp = true

/-- The registers that exception entry, exception return and the five instructions never write (R122): both copies of
SCTLR and VBAR, MVBAR, HVBAR, SCR.IRQ, SCR.FIQ, HCR, Pending, and the implementation. -/
def SameControl (s t : State) : Prop :=
  t.impl = s.impl ∧ t.sctlrS = s.sctlrS ∧ t.sctlrNS = s.sctlrNS ∧ t.vbarS = s.vbarS ∧ t.vbarNS = s.vbarNS
    ∧ t.mvbar = s.mvbar ∧ t.hvbar = s.hvbar ∧ t.scr.irq = s.scr.irq ∧ t.scr.fiq = s.scr.fiq ∧ t.hcr = s.hcr
    ∧ t.pending = s.pending

/-- Every byte of every address space reads as before. -/
def SameMemory (s t : State) : Prop := ∀ (r : Regime) (x : Word), (t.mem r).read x = (s.mem r).read x

/-- Every byte reads as before but for the `n` bytes at `a` of address space `r`. -/
def SameMemoryOutside (r : Regime) (a : Word) (n : Nat) (s t : State) : Prop :=
  ∀ (r' : Regime) (x : Word), (r' ≠ r ∨ ∀ k : Nat, k < n → x ≠ a + BitVec.ofNat 32 k) →
    (t.mem r').read x = (s.mem r').read x

/-- The general registers of the spec but the LINK cells: every stack pointer is as before. -/
def SameStacks (s t : State) : Prop := ∀ m : Mode, t.spOf m = s.spOf m

/-- `ILen(i)` (R6, D27): how far the instruction after `i` lies. -/
def lengthOf (l : ILen) : Instr → Nat
  | .svcA1 .. => l.svcA1
  | .svcT1 .. => l.svcT1
  | .smcA1 .. => l.smcA1
  | .smcT1 .. => l.smcT1
  | .hvcA1 .. => l.hvcA1
  | .hvcT1 .. => l.hvcT1
  | .srsA1 .. => l.srsA1
  | .srsT1 .. => l.srsT1
  | .srsT2 .. => l.srsT2
  | .cpsA1 .. => l.cpsA1
  | .cpsT1 .. => l.cpsT1
  | .cpsT2 .. => l.cpsT2

/-- An SVC that is taken: the Thumb form, or the ARM form with a condition that passes (R65). -/
def IsTakenSvc (i : Instr) (s : State) : Prop :=
  (∃ imm8, i = .svcT1 imm8) ∨ ∃ cond imm24, i = .svcA1 cond imm24 ∧ condPasses cond s.cpsr = true

/-- The three encodings of SRS, with the addressing mode each has (R57, R70). -/
def IsSrs (p u w : Bool) (mode : BitVec 5) (i : Instr) : Prop :=
  i = .srsA1 p u w mode ∨ (p = true ∧ u = false ∧ i = .srsT1 w mode) ∨ (p = false ∧ u = true ∧ i = .srsT2 w mode)

/-- The vector table of entry to mode `tgt`: its address space and its base (R41, R89, R91, R92). -/
def tableUsed (tgt : ExcMode) (s : State) : Regime × Word :=
  match tgt with
  | .monitor => (.securePL1, s.mvbar)
  | .hyp => (.pl2, s.hvbar)
  | .supervisor | .undefined | .abort | .irq | .fiq => (tableRegime s.isSecure, excVectorBase s s.isSecure)

/-- Entry of `e` to mode `tgt` takes its vector from a table: the interrupt controller does not supply it (R104), and it
is no virtual interrupt under vectoring (R105). -/
def UsesTable (e : Exc) (tgt : ExcMode) (s : State) : Prop :=
  ((e = .irq ∨ e = .fiq) → tgt ≠ .monitor → tgt ≠ .hyp → ¬ (s.impl.vecIrq = true ∧ (s.sctlr s.isSecure).ve = true))
    ∧ ((e = .virtualIRQ ∨ e = .virtualFIQ) → ¬ (s.impl.vecIrq = true ∧ s.sctlrNS.ve = true))

/-- Every byte the program has not stored to reads as in the memory `l` it was launched with (R53). -/
def AsLaunched (l : Regime → Memory) (s : State) : Prop :=
  ∀ (r : Regime) (x : Word), (r, x) ∉ s.stored → (s.mem r).read x = (l r).read x

/-- The register, or the byte, a write of the abstract Execute is to: the write with its value taken out. User and
System mode share a stack pointer. -/
def placeOf : RegWrite → RegWrite
  | .cpsrFlags .. => .cpsrFlags false false false false false 0#4
  | .cpsrRes _ => .cpsrRes 0#4
  | .cpsrIt _ => .cpsrIt 0#8
  | .cpsrISet _ => .cpsrISet .arm
  | .cpsrE _ => .cpsrE false
  | .cpsrMasks _ => .cpsrMasks .none
  | .spsr m _ => .spsr m default
  | .link m _ => .link m 0#32
  | .sp k _ => .sp (if k = .system then .user else k) 0#32
  | .sctlrV ns _ => .sctlrV ns false
  | .sctlrVE ns _ => .sctlrVE ns false
  | .vbar ns _ => .vbar ns 0#32
  | .mvbar _ => .mvbar 0#32
  | .hvbar _ => .hvbar 0#32
  | .scrNS _ => .scrNS false
  | .scrIRQ _ => .scrIRQ false
  | .scrFIQ _ => .scrFIQ false
  | .hcrTGE _ => .hcrTGE false
  | .store r a _ => .store r a 0#8

/-- The place a write is to holds the value it writes. -/
def Holds (w : RegWrite) (t : State) : Prop :=
  match w with
  | .cpsrFlags n z c v q ge =>
    t.cpsr.n = n ∧ t.cpsr.z = z ∧ t.cpsr.c = c ∧ t.cpsr.v = v ∧ t.cpsr.q = q ∧ t.cpsr.ge = ge
  | .cpsrRes res => t.cpsr.res = res
  | .cpsrIt it => t.cpsr.it = it
  | .cpsrISet iset => t.cpsr.iset = iset
  | .cpsrE e => t.cpsr.e = e
  | .cpsrMasks masks => t.cpsr.masks = masks
  | .spsr m p => t.spsr.get m = p
  | .link m x => t.link.get m = x
  | .sp k x => t.spOf k = x
  | .sctlrV ns b => (t.sctlr (!ns)).v = b
  | .sctlrVE ns b => (t.sctlr (!ns)).ve = b
  | .vbar ns x => t.vbar (!ns) = x
  | .mvbar x => t.mvbar = x
  | .hvbar x => t.hvbar = x
  | .scrNS b => t.scr.ns = b
  | .scrIRQ b => t.scr.irq = b
  | .scrFIQ b => t.scr.fiq = b
  | .hcrTGE b => t.hcr.tge = b
  | .store r a b => (t.mem r).read a = some b

/-- A write to a register that this configuration has (R13, R18 to R25, R31), and that does not clear `SCR.NS` in Hyp
mode (R13). A store is none: whether it is permitted depends on the vector tables (R53). -/
def MayWrite (s : State) : RegWrite → Prop
  | .cpsrFlags .. | .cpsrRes _ | .cpsrIt _ | .cpsrISet _ | .cpsrE _ | .cpsrMasks _ => True
  | .spsr m _ | .link m _ => Impl.hasMode s.impl m.toMode = true
  | .sp k _ => Impl.hasMode s.impl k = true
  | .sctlrV ns _ | .sctlrVE ns _ => ns = true → s.impl.secExt = true
  | .vbar _ _ | .mvbar _ | .scrIRQ _ | .scrFIQ _ => s.impl.secExt = true
  | .hvbar _ | .hcrTGE _ => s.impl.virtExt = true
  | .scrNS b => s.impl.secExt = true ∧ (s.cpsr.mode = .hyp → b = true)
  | .store .. => False

/-- The spec says what the register holds after the write: every one but a 1 written to SCTLR.VE without the
vectored-interrupt hardware (R19, U2). -/
def HasStatedValue (c : Impl) : RegWrite → Prop
  | .sctlrVE _ b => c.vecIrq = true ∨ b = false
  | _ => True

/-- What an ordinary instruction that completes leaves and where it goes on (R5): the pc is `next`, one input is used
up; the implementation, the mode, Pending and the draws stay. -/
def GoesOn (next : Word) (rest : List Input) (s t : State) : Prop :=
  t.pc = next ∧ t.inputs = rest ∧ t.impl = s.impl ∧ t.cpsr.mode = s.cpsr.mode ∧ t.pending = s.pending
    ∧ t.draws = s.draws

/-- The state `t` is `s` after exception `e` was taken to mode `tgt` at vector `vec`, with preferred return address
`pref` and the IT bits `it` correct for it: the seven steps of R110, and what they leave (R122). -/
structure Entered (e : Exc) (pref : Word) (it : BitVec 8) (tgt : ExcMode) (vec : Word) (s t : State) : Prop where
  /-- Step 2 (R112). -/
  link : t.link.get tgt = pref + linkOffset e tgt.pl s.cpsr.iset
  /-- Step 3 (R113). -/
  spsr : t.spsr.get tgt = { s.cpsr with it := it }
  /-- Step 4 (R114). -/
  ns : t.scr.ns = if s.impl.secExt = true ∧ s.cpsr.mode = .monitor then false else s.scr.ns
  /-- Step 5: the mode (R115). -/
  mode : t.cpsr.mode = tgt.toMode
  /-- Step 5: the other four parts, and everything else as it was (R115 to R118). -/
  cpsr : t.cpsr =
    { s.cpsr with
      mode := tgt.toMode
      masks := s.cpsr.masks.union (Config.entryMask e tgt.toMode s)
      iset := Config.entryISet tgt.toMode s
      e := Config.entryEndian tgt.toMode s
      it := 0#8 }
  /-- Steps 6 and 7 (R120, R121). -/
  pc : t.pc = vec
  /-- The cells of the other modes (R113, R122). -/
  others : ∀ k : ExcMode, k ≠ tgt → t.link.get k = s.link.get k ∧ t.spsr.get k = s.spsr.get k
  /-- The stack pointers. -/
  stackPointers : SameStacks s t
  /-- The control registers and Pending (R122). -/
  control : SameControl s t
  /-- Memory (R48, R122), and the record of stores (R53). -/
  memory : SameMemory s t
  stored : t.stored = s.stored

/-- The state `t` is `s` after an SRS of length `n` stored the return state of mode `m` at `a` in the current address
space, and wrote `back` to the stack pointer of mode `stack` where there is one (R70). -/
structure ReturnStateStored (n : Nat) (m : ExcMode) (stack : Mode) (a : Word) (back : Option Word) (s t : State) :
    Prop where
  /-- The word at `a` is `LINK[m]`. -/
  link : (t.mem s.regime).readBytes a 4 = .ok (bytesOfWord s.dataOrder (s.link.get m))
  /-- The word at `a + 4` is `SPSR[m]`. -/
  spsr : (t.mem s.regime).readBytes (a + 4#32) 4 = .ok (bytesOfWord s.dataOrder (psrWord (s.spsr.get m)))
  /-- The write-back. -/
  back : t.spOf stack = back.getD (s.spOf stack)
  /-- Every stack pointer held elsewhere; User and System mode share one. -/
  otherStacks : ∀ k : Mode, k.excMode ≠ stack.excMode → t.spOf k = s.spOf k
  /-- The pc and the IT bits go on; nothing else of the CPSR changes. -/
  pc : t.pc = s.pc + BitVec.ofNat 32 n
  cpsr : t.cpsr = { s.cpsr with it := itNext s.cpsr }
  /-- Every LINK and SPSR cell, and the rest. -/
  cells : t.link = s.link ∧ t.spsr = s.spsr
  ns : t.scr.ns = s.scr.ns
  control : SameControl s t
  /-- Every byte but the eight stored. -/
  memory : SameMemoryOutside s.regime a 8 s t
  /-- The record of stores gains the eight (R53). -/
  stored : ∀ p, p ∈ t.stored ↔ p ∈ s.stored ∨ ∃ k : Nat, k < 8 ∧ p = (s.regime, a + BitVec.ofNat 32 k)

end Sys2Proof.Machine
end

