-- ==== Sys2Proof/Certificates/Slice0/Obligations.lean ====
section
/-! DEFINITION. The statements for the provers, about the machine and no program. Where a docstring says "the model's
choice" it names the log entry: such a clause is no rule of the spec. -/

open Sys2Proof Sys2Proof.Machine

/-! ### Encoding (spec/30_encoding.md) -/

/-- R57: decoding the bytes of a well-formed instruction gives it back, with every field at every value, in either byte
order, whatever follows. -/
def Obligations.DecodeEncodeRoundTrip : Prop :=
  ∀ (i : Instr) (o : Endian) (rest : List Byte), i.wellFormed = true →
    decode i.iset o ((encode i).bytes o ++ rest) = .ok (i, rest)

/-- R57: what decodes is exactly the encoding of the instruction decoded: no bit is dropped, no other bytes decode to
it. -/
def Obligations.DecodedBytesAreTheEncoding : Prop :=
  ∀ (iset : ISet) (o : Endian) (bs rest : List Byte) (i : Instr), decode iset o bs = .ok (i, rest) →
    i.wellFormed = true ∧ i.iset = iset ∧ bs = (encode i).bytes o ++ rest

/-- Words of spec/95_test_vectors.md 2.4 and 2.5 decode to the instructions given there. -/
def Obligations.SpecWordsDecode : Prop :=
  decodeArm 0xEF123456#32 = .ok (.svcA1 0xE#4 0x123456#24)
    ∧ decodeArm 0xE160007F#32 = .ok (.smcA1 0xE#4 15#4)
    ∧ decodeArm 0xE1412374#32 = .ok (.hvcA1 0x1234#16)
    ∧ decodeArm 0xF96D0513#32 = .ok (.srsA1 true false true 19#5)
    ∧ decodeArm 0xF10E01D3#32 = .ok (.cpsA1 0b11#2 true true true true 19#5)
    ∧ decodeThumb16 0xDFFF#16 = .ok (.svcT1 255#8)
    ∧ decodeThumb16 0xB672#16 = .ok (.cpsT1 true false true false)
    ∧ decodeThumb32 0xF7F0#16 0x8000#16 = .ok (.smcT1 0#4)
    ∧ decodeThumb32 0xF7E1#16 0x8234#16 = .ok (.hvcT1 0x1234#16)
    ∧ decodeThumb32 0xE82D#16 0xC013#16 = .ok (.srsT1 true 19#5)
    ∧ decodeThumb32 0xE9AD#16 0xC013#16 = .ok (.srsT2 true 19#5)
    ∧ decodeThumb32 0xF3AF#16 0x8113#16 = .ok (.cpsT2 0b00#2 true false false false 19#5)

/-- The 32-bit layout of R16 (the model takes it from there: notes/assumptions/7.md): each field stands where R16 puts
it, with the four unnamed bits in [23:20], and nothing is lost in either direction. -/
def Obligations.StatusWordRoundTrip : Prop :=
  (∀ p : PSR, psrOfWord (psrWord p) = some p)
    ∧ (∀ (w : Word) (p : PSR), psrOfWord w = some p → psrWord p = w)
    ∧ ∀ (p : PSR) (w : Word), w = psrWord p →
      w.getLsbD 31 = p.n ∧ w.getLsbD 30 = p.z ∧ w.getLsbD 29 = p.c ∧ w.getLsbD 28 = p.v ∧ w.getLsbD 27 = p.q
        ∧ w.extractLsb' 25 2 = p.it.extractLsb' 0 2 ∧ w.extractLsb' 10 6 = p.it.extractLsb' 2 6
        ∧ w.extractLsb' 20 4 = p.res ∧ w.extractLsb' 16 4 = p.ge
        ∧ w.getLsbD 9 = p.e ∧ w.getLsbD 8 = p.masks.a ∧ w.getLsbD 7 = p.masks.i ∧ w.getLsbD 6 = p.masks.f
        ∧ (w.getLsbD 24 = true ↔ p.iset = .jazelle ∨ p.iset = .thumbEE)
        ∧ (w.getLsbD 5 = true ↔ p.iset = .thumb ∨ p.iset = .thumbEE)
        ∧ w.extractLsb' 0 5 = p.mode.bits

/-! ### One step -/

/-- When the bytes at the pc are the code of a well-formed instruction of the current instruction set, nothing comes
from outside and no asynchronous exception may be taken, one step is that instruction's meaning, which itself moves the
pc. -/
def Obligations.StepRunsTheDecodedInstruction : Prop :=
  ∀ (s : State) (i : Instr), i.wellFormed = true → s.cpsr.iset = i.iset → pcAligned i.iset s.pc = true →
    (s.mem s.regime).readBytes s.pc i.len = .ok ((encode i).bytes s.fetchOrder) →
    (s.inputs = [] → anyTakeable s = false → step s = exec i s)
      ∧ ∀ rest, s.inputs = .quiet :: rest → anyTakeable { s with inputs := rest } = false →
        step s = exec i { s with inputs := rest }

/-- R107, R108 (not forced to take one: notes/assumptions/29.md): with no input, a step either takes one asynchronous
exception that is pending and not masked, with the pc as its preferred return address, or runs the instruction at the
pc; only the draw counter may differ. Where the free choice is one that may be taken, the step takes it. -/
def Obligations.AsyncTakenOnlyIfPendingAndUnmasked : Prop :=
  ∀ s : State, s.inputs = [] →
    ((∃ x, s.pending.has x = true ∧ Config.masked x s = false
        ∧ step s = takeException x.toExc ⟨s.pc, s.cpsr.it⟩ { s with draws := s.draws + 1 })
      ∨ step s = runInstr s ∨ step s = runInstr { s with draws := s.draws + 1 })
      ∧ ∀ x, Config.asyncChoice s.draws = some x → takeable s x = true →
        step s = takeException x.toExc ⟨s.pc, s.cpsr.it⟩ { s with draws := s.draws + 1 }

/-- R29: taking an exception does not clear `Pending`; only the environment, by its own input or by a reset, changes it.
-/
def Obligations.PendingChangesFromOutsideOnly : Prop :=
  ∀ s t : State, step s = .next t →
    (∀ p rest, s.inputs ≠ .pending p :: rest) → (∀ d rest, s.inputs ≠ .reset d :: rest) →
    t.pending = s.pending

/-! ### Reset (spec/70_reset_and_hazards.md) -/

/-- R140, R141: a reset with any draw, through a table whose base is a multiple of 32 (R43) and that nothing has stored
to (R53), enters Supervisor mode in Secure state with IT and every SCTLR.VE clear, at `0xFFFF0000` if RESET_V, else at
`0x00000000` without the Security Extensions and at RESET_VBAR_S with them; memory stays (the model's choice,
notes/assumptions/32.md). -/
def Obligations.ResetEntersSupervisorAtTheResetVector : Prop :=
  ∀ (s : State) (d : ResetDraw) (rest : List Input) (base : Word), s.inputs = .reset d :: rest →
    base = (if d.resetV then 0xFFFF0000#32 else if s.impl.secExt then d.resetVbarS else 0x00000000#32) →
    tableReady s .securePL1 base = true →
    ∃ t, step s = .next t
      ∧ t.cpsr.mode = .supervisor ∧ t.isSecure = true ∧ t.cpsr.it = 0#8
      ∧ t.sctlrS.ve = false ∧ t.sctlrNS.ve = false ∧ t.pc = base
      ∧ t.cpsr.masks = d.masks ∧ t.cpsr.iset = d.iset ∧ t.cpsr.e = d.e ∧ t.impl = s.impl ∧ SameMemory s t

/-- What R33 gives of the state after reset holds of `State.reset`; its pc is the Reset vector for the values the model
names (notes/assumptions/31.md). -/
def Obligations.ResetStateAsTheSpecSays : Prop :=
  State.reset.cpsr.mode = .supervisor ∧ State.reset.cpsr.it = 0#8 ∧ State.reset.isSecure = true
    ∧ State.reset.sctlrS.ve = false ∧ State.reset.sctlrNS.ve = false ∧ State.reset.scr.ns = false
    ∧ State.reset.pc = excVectorBase State.reset true + 0x00#32

/-! ### Vector tables and routes (spec/60_exceptions.md) -/

/-- R102: the offsets of the Secure, the Non-secure and the single vector table. -/
def Obligations.PL1Offsets : Prop :=
  offPL1 .reset = some 0x00#32 ∧ offPL1 .undefinedInstruction = some 0x04#32
    ∧ offPL1 .supervisorCall = some 0x08#32 ∧ offPL1 .prefetchAbort = some 0x0C#32
    ∧ offPL1 .dataAbort = some 0x10#32 ∧ offPL1 .virtualAbort = some 0x10#32
    ∧ offPL1 .irq = some 0x18#32 ∧ offPL1 .virtualIRQ = some 0x18#32
    ∧ offPL1 .fiq = some 0x1C#32 ∧ offPL1 .virtualFIQ = some 0x1C#32

/-- R88: without the Security Extensions SCTLR.V selects the base, in both profiles. -/
def Obligations.BaseWithoutSecurityExtensions : Prop :=
  ∀ s : State, s.impl.secExt = false →
    (s.sctlrS.v = false → excVectorBase s s.isSecure = 0x00000000#32)
      ∧ (s.sctlrS.v = true → excVectorBase s s.isSecure = 0xFFFF0000#32)

/-- R90, R92: with the Security Extensions each security state's own SCTLR.V chooses between its own VBAR and Hivecs. -/
def Obligations.BaseWithSecurityExtensions : Prop :=
  ∀ s : State, s.impl.secExt = true →
    excVectorBase s true = (if s.sctlrS.v then 0xFFFF0000#32 else s.vbarS)
      ∧ excVectorBase s false = (if s.sctlrNS.v then 0xFFFF0000#32 else s.vbarNS)

/-- R43: an exception taken through a table whose base is not a multiple of 32 is refused, whatever table it is, and so
is a reset; from a base that is one, through a table that nothing has stored to (R53), base plus offset does not wrap
and the vector is word-aligned. -/
def Obligations.VectorArithmetic : Prop :=
  (∀ (e : Exc) (ctx : Ctx) (s : State) (tgt : ExcMode), targetMode e s = .ok tgt → UsesTable e tgt s →
      (tableUsed tgt s).2.extractLsb' 0 5 ≠ 0#5 →
      takeException e ctx s = .refused (.unalignedVectorBase (tableUsed tgt s).2))
    ∧ (∀ (d : ResetDraw) (s : State), s.impl.secExt = true → d.resetV = false →
      d.resetVbarS.extractLsb' 0 5 ≠ 0#5 → takeReset d s = .refused (.unalignedVectorBase d.resetVbarS))
    ∧ ∀ (s : State) (r : Regime) (e : Exc) (base o : Word), base.extractLsb' 0 5 = 0#5 →
      tableStored s r base = false →
      (offPL1 e = some o ∨ offMon e = some o ∨ ∃ c f, offHyp c e f = some o) →
      tableVector s r e base (some o) = .ok (base + o) ∧ (base + o).toNat = base.toNat + o.toNat
        ∧ (base + o).toNat % 4 = 0

/-- R89, R98: an exception taken to Monitor mode goes to MVBAR plus its offset of the Monitor column, whatever either
copy of SCTLR holds. -/
def Obligations.MonitorVector : Prop :=
  ∀ (e : Exc) (ctx : Ctx) (s t : State), takeException e ctx s = .next t → t.cpsr.mode = .monitor →
    (e = .secureMonitorCall ∧ t.pc = s.mvbar + 0x08#32)
      ∨ (e = .prefetchAbort ∧ t.pc = s.mvbar + 0x0C#32)
      ∨ (e = .dataAbort ∧ t.pc = s.mvbar + 0x10#32)
      ∨ (e = .irq ∧ t.pc = s.mvbar + 0x18#32)
      ∨ (e = .fiq ∧ t.pc = s.mvbar + 0x1C#32)

/-- R97: an exception taken to Hyp mode goes to HVBAR plus `0x14`, but for IRQ and FIQ, and for the four that have an
entry of their own when taken from Hyp mode; SVC reaches Hyp mode from elsewhere only in Non-secure User mode with
HCR.TGE set. -/
def Obligations.HypVector : Prop :=
  ∀ (e : Exc) (ctx : Ctx) (s t : State), takeException e ctx s = .next t → t.cpsr.mode = .hyp →
    (s.cpsr.mode ≠ .hyp →
      (e = .irq ∧ t.pc = s.hvbar + 0x18#32) ∨ (e = .fiq ∧ t.pc = s.hvbar + 0x1C#32)
        ∨ ((e = .supervisorCall ∧ s.cpsr.mode = .user ∧ s.isSecure = false ∧ s.hcr.tge = true)
            ∨ e = .undefinedInstruction ∨ e = .hypervisorCall ∨ e = .prefetchAbort ∨ e = .dataAbort
            ∨ e = .hypTrap) ∧ t.pc = s.hvbar + 0x14#32)
      ∧ (s.cpsr.mode = .hyp → e ≠ .supervisorCall →
        (e = .undefinedInstruction ∧ t.pc = s.hvbar + 0x04#32)
          ∨ (e = .hypervisorCall ∧ t.pc = s.hvbar + 0x08#32)
          ∨ (e = .prefetchAbort ∧ t.pc = s.hvbar + 0x0C#32)
          ∨ (e = .dataAbort ∧ t.pc = s.hvbar + 0x10#32)
          ∨ (e = .hypTrap ∧ t.pc = s.hvbar + 0x14#32)
          ∨ (e = .irq ∧ t.pc = s.hvbar + 0x18#32)
          ∨ (e = .fiq ∧ t.pc = s.hvbar + 0x1C#32))

/-- With the Security Extensions, SCR.IRQ and SCR.FIQ route exactly their interrupt to Monitor mode, whatever the mode
or security state: R99, where "exactly when" is the spec's own reading of the source's "routed by setting"; the entry is
at `MVBAR + 0x18` and `MVBAR + 0x1C` (R98). -/
def Obligations.InterruptsRoutedToMonitor : Prop :=
  ∀ s : State, s.impl.secExt = true →
    (targetMode .irq s = .ok .monitor ↔ s.scr.irq = true)
      ∧ (targetMode .fiq s = .ok .monitor ↔ s.scr.fiq = true)
      ∧ (tableReady s .securePL1 s.mvbar = true → s.scr.irq = true → ∀ ctx, ∃ t, takeException .irq ctx s = .next t
          ∧ Entered .irq ctx.prefReturn ctx.itAtPref .monitor (s.mvbar + 0x18#32) s t)
      ∧ (tableReady s .securePL1 s.mvbar = true → s.scr.fiq = true → ∀ ctx, ∃ t, takeException .fiq ctx s = .next t
          ∧ Entered .fiq ctx.prefReturn ctx.itAtPref .monitor (s.mvbar + 0x1C#32) s t)

/-- R93, R94, R95: the modes each exception can be taken to: Monitor mode only with the Security Extensions, Hyp mode,
in a legal state, only with the Virtualization Extensions and in Non-secure state, a virtual exception only from
Non-secure state. -/
def Obligations.RoutesOfEachException : Prop :=
  ∀ (e : Exc) (s : State) (tgt : ExcMode), targetMode e s = .ok tgt →
    ((e = .undefinedInstruction ∧ (tgt = .undefined ∨ tgt = .hyp))
      ∨ (e = .supervisorCall ∧ (tgt = .supervisor ∨ tgt = .hyp))
      ∨ (e = .secureMonitorCall ∧ tgt = .monitor)
      ∨ ((e = .hypervisorCall ∨ e = .hypTrap) ∧ tgt = .hyp)
      ∨ ((e = .prefetchAbort ∨ e = .dataAbort) ∧ (tgt = .abort ∨ tgt = .monitor ∨ tgt = .hyp))
      ∨ (e = .irq ∧ (tgt = .irq ∨ tgt = .monitor ∨ tgt = .hyp))
      ∨ (e = .fiq ∧ (tgt = .fiq ∨ tgt = .monitor ∨ tgt = .hyp))
      ∨ (e = .virtualAbort ∧ tgt = .abort ∧ s.isSecure = false)
      ∨ (e = .virtualIRQ ∧ tgt = .irq ∧ s.isSecure = false)
      ∨ (e = .virtualFIQ ∧ tgt = .fiq ∧ s.isSecure = false))
      ∧ (tgt = .monitor → s.impl.secExt = true)
      ∧ (Legal s → tgt = .hyp → s.impl.virtExt = true ∧ s.isSecure = false)

/-- R104: an IRQ or FIQ taken to IRQ or FIQ mode goes to the address the controller supplies exactly when the hardware
exists and the VE bit of the security state entered is 1, and else to the fixed offset; nothing else of entry differs.
-/
def Obligations.VectoredInterrupts : Prop :=
  ∀ (ctx : Ctx) (s t : State),
    (takeException .irq ctx s = .next t → t.cpsr.mode = .irq →
      Entered .irq ctx.prefReturn ctx.itAtPref .irq
        (if s.impl.vecIrq = true ∧ (s.sctlr s.isSecure).ve = true then Config.vectoredAddr .irq s.draws
          else excVectorBase s s.isSecure + 0x18#32) s t)
      ∧ (takeException .fiq ctx s = .next t → t.cpsr.mode = .fiq →
        Entered .fiq ctx.prefReturn ctx.itAtPref .fiq
          (if s.impl.vecIrq = true ∧ (s.sctlr s.isSecure).ve = true then Config.vectoredAddr .fiq s.draws
            else excVectorBase s s.isSecure + 0x1C#32) s t)

/-- R101, R105: a virtual exception, in a Non-secure mode other than Hyp, enters Non-secure Abort, IRQ or FIQ mode
through the Non-secure table; a virtual IRQ or FIQ under vectoring is refused. -/
def Obligations.VirtualExceptions : Prop :=
  ∀ (ctx : Ctx) (s : State), s.impl.virtExt = true → s.isSecure = false → s.cpsr.mode ≠ .hyp →
    tableReady s .nonsecurePL1 (excVectorBase s false) = true →
    (∃ t, takeException .virtualAbort ctx s = .next t ∧ t.isSecure = false
        ∧ Entered .virtualAbort ctx.prefReturn ctx.itAtPref .abort (excVectorBase s false + 0x10#32) s t)
      ∧ ((s.impl.vecIrq = true ∧ s.sctlrNS.ve = true) →
        takeException .virtualIRQ ctx s = .refused .virtualInterruptVectored
          ∧ takeException .virtualFIQ ctx s = .refused .virtualInterruptVectored)
      ∧ (¬ (s.impl.vecIrq = true ∧ s.sctlrNS.ve = true) →
        (∃ t, takeException .virtualIRQ ctx s = .next t ∧ t.isSecure = false
            ∧ Entered .virtualIRQ ctx.prefReturn ctx.itAtPref .irq (excVectorBase s false + 0x18#32) s t)
          ∧ ∃ t, takeException .virtualFIQ ctx s = .next t ∧ t.isSecure = false
            ∧ Entered .virtualFIQ ctx.prefReturn ctx.itAtPref .fiq (excVectorBase s false + 0x1C#32) s t)

/-! ### Entry in general -/

/-- Whatever exception is taken, its effects are the seven steps of R110, entry to the mode it is taken to at the vector
R120 gives, and no others: derived. That nothing else changes is R122, which the spec derives; that the rest of the CPSR
stays is decision D4 (notes/assumptions/33.md), that the stack pointers do is the model's (notes/assumptions/9.md). -/
def Obligations.EntryIsTheSevenSteps : Prop :=
  ∀ (e : Exc) (ctx : Ctx) (s t : State), takeException e ctx s = .next t →
    ∃ tgt, targetMode e s = .ok tgt ∧ vectorAddress e tgt s = .ok t.pc
      ∧ Entered e ctx.prefReturn ctx.itAtPref tgt t.pc s t

/-- R114: with the Security Extensions an exception taken from Monitor mode clears SCR.NS; any other exception leaves
SCR.NS as it was. That the processor is then Secure and uses the Monitor or the Secure table follows with R15
(notes/assumptions/39.md), as R114 says; the vectored address instead is R104, R120. -/
def Obligations.EntryFromMonitorClearsNS : Prop :=
  ∀ (e : Exc) (ctx : Ctx) (s t : State), takeException e ctx s = .next t →
    ((s.impl.secExt = true ∧ s.cpsr.mode = .monitor) →
      t.scr.ns = false ∧ t.isSecure = true
        ∧ ((∃ o, offMon e = some o ∧ t.cpsr.mode = .monitor ∧ t.pc = s.mvbar + o)
          ∨ (∃ o, offPL1 e = some o ∧ t.pc = excVectorBase s true + o)
          ∨ (s.impl.vecIrq = true ∧ s.sctlrS.ve = true ∧ t.pc = Config.vectoredAddr e s.draws)))
      ∧ (¬ (s.impl.secExt = true ∧ s.cpsr.mode = .monitor) → t.scr.ns = s.scr.ns)

/-- R116: entry adds the members of EntryMask to the mask bits and removes none. -/
def Obligations.EntryOnlySetsMasks : Prop :=
  ∀ (e : Exc) (ctx : Ctx) (s t : State), takeException e ctx s = .next t →
    t.cpsr.masks = s.cpsr.masks.union (Config.entryMask e t.cpsr.mode s)
      ∧ (s.cpsr.masks.a = true → t.cpsr.masks.a = true) ∧ (s.cpsr.masks.i = true → t.cpsr.masks.i = true)
      ∧ (s.cpsr.masks.f = true → t.cpsr.masks.f = true)

/-- What entry leaves: the cells of every other mode, both copies of SCTLR and VBAR, MVBAR, HVBAR, SCR.IRQ, SCR.FIQ,
HCR, Pending and memory (R122, which the spec derives from R110); the CPSR but its five parts, by decision D4
(notes/assumptions/33.md); and the stack pointers, the model's own (notes/assumptions/9.md). -/
def Obligations.EntryFrame : Prop :=
  ∀ (e : Exc) (ctx : Ctx) (s t : State), takeException e ctx s = .next t →
    (∀ k : ExcMode, k.toMode ≠ t.cpsr.mode → t.spsr.get k = s.spsr.get k ∧ t.link.get k = s.link.get k)
      ∧ t.cpsr = { s.cpsr with
          mode := t.cpsr.mode, masks := t.cpsr.masks, iset := t.cpsr.iset, e := t.cpsr.e, it := t.cpsr.it }
      ∧ SameControl s t ∧ SameStacks s t ∧ SameMemory s t

/-- R119, R123 (that an instruction fails is an input: notes/assumptions/4.md): an undefined instruction, an aborted
fetch and an aborted data access, where the route is to PL1, as it always is without the Security Extensions, enter
Undefined and Abort mode at offsets `0x04`, `0x0C`, `0x10` of the current security state's table, with the instruction's
own address as the preferred return address. -/
def Obligations.FailingInstructionsEnterPL1 : Prop :=
  ∀ (s u : State) (rest : List Input), u = { s with inputs := rest } →
    tableReady s (tableRegime s.isSecure) (excVectorBase s s.isSecure) = true →
    (s.inputs = .raise .undefinedInstruction :: rest →
        (s.impl.secExt = false ∨ targetMode .undefinedInstruction u = .ok .undefined) → ∃ t, step s = .next t
          ∧ Entered .undefinedInstruction s.pc s.cpsr.it .undefined (excVectorBase s s.isSecure + 0x04#32) u t)
      ∧ (s.inputs = .raise .prefetchAbort :: rest →
        (s.impl.secExt = false ∨ targetMode .prefetchAbort u = .ok .abort) → ∃ t, step s = .next t
          ∧ Entered .prefetchAbort s.pc s.cpsr.it .abort (excVectorBase s s.isSecure + 0x0C#32) u t)
      ∧ (s.inputs = .raise .dataAbort :: rest →
        (s.impl.secExt = false ∨ targetMode .dataAbort u = .ok .abort) → ∃ t, step s = .next t
          ∧ Entered .dataAbort s.pc s.cpsr.it .abort (excVectorBase s s.isSecure + 0x10#32) u t)

/-- R97, R119: a trapped instruction, in Non-secure state with the Virtualization Extensions, enters Hyp mode at `HVBAR
+ 0x14` with the instruction's own address as the preferred return address, from Hyp mode too. -/
def Obligations.HypTrapEntersHyp : Prop :=
  ∀ (s : State) (rest : List Input), s.inputs = .raise .hypTrap :: rest → s.impl.virtExt = true →
    s.isSecure = false → tableReady s .pl2 s.hvbar = true →
    ∃ t, step s = .next t
      ∧ Entered .hypTrap s.pc s.cpsr.it .hyp (s.hvbar + 0x14#32) { s with inputs := rest } t

/-! ### SVC, SMC, HVC (spec/40_exception_calls.md) -/

/-- R65: SVC, where it is not sent to Hyp mode, enters Supervisor mode through offset `0x08` of the current security
state's table, with the next instruction as the preferred return address. -/
def Obligations.SvcEntersSupervisor : Prop :=
  ∀ s : State, s.cpsr.mode ≠ .hyp →
    ¬ (s.impl.virtExt = true ∧ s.isSecure = false ∧ s.cpsr.mode = .user ∧ s.hcr.tge = true) →
    tableReady s (tableRegime s.isSecure) (excVectorBase s s.isSecure) = true →
    (∀ cond imm24, condPasses cond s.cpsr = true → ∃ t, exec (.svcA1 cond imm24) s = .next t
        ∧ Entered .supervisorCall (s.pc + BitVec.ofNat 32 s.impl.iLen.svcA1) (itNext s.cpsr) .supervisor
            (excVectorBase s s.isSecure + 0x08#32) s t)
      ∧ ∀ imm8, ∃ t, exec (.svcT1 imm8) s = .next t
        ∧ Entered .supervisorCall (s.pc + BitVec.ofNat 32 s.impl.iLen.svcT1) (itNext s.cpsr) .supervisor
            (excVectorBase s s.isSecure + 0x08#32) s t

/-- R65, R97: SVC in Non-secure User mode with HCR.TGE set enters Hyp mode at `HVBAR + 0x14`. -/
def Obligations.SvcWithTgeEntersHyp : Prop :=
  ∀ s : State, s.impl.virtExt = true → s.isSecure = false → s.cpsr.mode = .user → s.hcr.tge = true →
    tableReady s .pl2 s.hvbar = true →
    (∀ cond imm24, condPasses cond s.cpsr = true → ∃ t, exec (.svcA1 cond imm24) s = .next t
        ∧ Entered .supervisorCall (s.pc + BitVec.ofNat 32 s.impl.iLen.svcA1) (itNext s.cpsr) .hyp
            (s.hvbar + 0x14#32) s t)
      ∧ ∀ imm8, ∃ t, exec (.svcT1 imm8) s = .next t
        ∧ Entered .supervisorCall (s.pc + BitVec.ofNat 32 s.impl.iLen.svcT1) (itNext s.cpsr) .hyp
            (s.hvbar + 0x14#32) s t

/-- R65, D21: SVC in Hyp mode is refused, unless the implementation names an entry of the Hyp table for it. -/
def Obligations.SvcInHypNeedsItsParameter : Prop :=
  ∀ s : State, s.cpsr.mode = .hyp →
    (s.impl.svcFromHyp = none →
      (∀ imm8, exec (.svcT1 imm8) s = .refused .svcInHyp)
        ∧ ∀ cond imm24, condPasses cond s.cpsr = true → exec (.svcA1 cond imm24) s = .refused .svcInHyp)
      ∧ ∀ k, s.impl.svcFromHyp = some k → tableReady s .pl2 s.hvbar = true →
        (∀ imm8, ∃ t, exec (.svcT1 imm8) s = .next t
          ∧ Entered .supervisorCall (s.pc + BitVec.ofNat 32 s.impl.iLen.svcT1) (itNext s.cpsr) .hyp
              (s.hvbar + BitVec.ofNat 32 (4 * (k.val + 1))) s t)
          ∧ ∀ cond imm24, condPasses cond s.cpsr = true → ∃ t, exec (.svcA1 cond imm24) s = .next t
            ∧ Entered .supervisorCall (s.pc + BitVec.ofNat 32 s.impl.iLen.svcA1) (itNext s.cpsr) .hyp
                (s.hvbar + BitVec.ofNat 32 (4 * (k.val + 1))) s t

/-- R66: SMC, with the Security Extensions and outside User mode, enters Monitor mode at `MVBAR + 0x08`, with the next
instruction as the preferred return address; SCR.NS stays unless it was taken from Monitor mode. That SMC is permitted
in every mode but User, Hyp mode included, is the model's reading of R66's premise "permitted here"
(notes/assumptions/17.md); that the Thumb form in an If-Then block is taken whatever the IT bits say, another
(notes/assumptions/14.md). -/
def Obligations.SmcEntersMonitor : Prop :=
  ∀ s : State, s.impl.secExt = true → s.cpsr.mode ≠ .user → tableReady s .securePL1 s.mvbar = true →
    (∀ cond imm4, condPasses cond s.cpsr = true → ∃ t, exec (.smcA1 cond imm4) s = .next t
        ∧ Entered .secureMonitorCall (s.pc + BitVec.ofNat 32 s.impl.iLen.smcA1) (itNext s.cpsr) .monitor
            (s.mvbar + 0x08#32) s t)
      ∧ ∀ imm4, ∃ t, exec (.smcT1 imm4) s = .next t
        ∧ Entered .secureMonitorCall (s.pc + BitVec.ofNat 32 s.impl.iLen.smcT1) (itNext s.cpsr) .monitor
            (s.mvbar + 0x08#32) s t

/-- SMC in User mode is refused (U13: "permitted here" is a premise of R66; that User mode is the case is the model's
reading, notes/assumptions/17.md); without the Security Extensions SMC does not exist (R66). -/
def Obligations.SmcNotPermitted : Prop :=
  ∀ (s : State) (imm4 : BitVec 4),
    (s.impl.secExt = true → s.cpsr.mode = .user →
      exec (.smcT1 imm4) s = .refused .callNotPermitted
        ∧ ∀ cond, condPasses cond s.cpsr = true → exec (.smcA1 cond imm4) s = .refused .callNotPermitted)
      ∧ (s.impl.secExt = false → exec (.smcT1 imm4) s = .refused .noSuchInstruction
        ∧ ∀ cond, exec (.smcA1 cond imm4) s = .refused .noSuchInstruction)

/-- R67: HVC, with the Virtualization Extensions, in Non-secure state outside User mode, enters Hyp mode: at `HVBAR +
0x08` from Hyp mode, else at `HVBAR + 0x14`. That HVC is permitted in every Non-secure mode but User is the model's
reading of R67's premise "permitted here" (notes/assumptions/17.md). -/
def Obligations.HvcEntersHyp : Prop :=
  ∀ s : State, s.impl.virtExt = true → s.isSecure = false → s.cpsr.mode ≠ .user → tableReady s .pl2 s.hvbar = true →
    ∀ imm16, ∃ t t',
      exec (.hvcA1 imm16) s = .next t ∧ exec (.hvcT1 imm16) s = .next t'
        ∧ Entered .hypervisorCall (s.pc + BitVec.ofNat 32 s.impl.iLen.hvcA1) (itNext s.cpsr) .hyp
            (s.hvbar + (if s.cpsr.mode = .hyp then 0x08#32 else 0x14#32)) s t
        ∧ Entered .hypervisorCall (s.pc + BitVec.ofNat 32 s.impl.iLen.hvcT1) (itNext s.cpsr) .hyp
            (s.hvbar + (if s.cpsr.mode = .hyp then 0x08#32 else 0x14#32)) s t'

/-- HVC in Secure state and in User mode is refused (U13: "permitted here" is a premise of R67; that these are the cases
is the model's reading, notes/assumptions/17.md); without the Virtualization Extensions HVC does not exist (R67). -/
def Obligations.HvcNotPermitted : Prop :=
  ∀ (s : State) (imm16 : BitVec 16),
    (s.impl.virtExt = true → (s.isSecure = true ∨ s.cpsr.mode = .user) →
      exec (.hvcA1 imm16) s = .refused .callNotPermitted ∧ exec (.hvcT1 imm16) s = .refused .callNotPermitted)
      ∧ (s.impl.virtExt = false → exec (.hvcA1 imm16) s = .refused .noSuchInstruction
        ∧ exec (.hvcT1 imm16) s = .refused .noSuchInstruction)

/-- R65, R57: a conditional SVC or SMC whose condition fails does nothing but go on to the next instruction. -/
def Obligations.FailedConditionDoesNothing : Prop :=
  ∀ (s : State) (cond : BitVec 4), condPasses cond s.cpsr = false →
    (∀ imm24, exec (.svcA1 cond imm24) s
        = .next { s with pc := s.pc + BitVec.ofNat 32 s.impl.iLen.svcA1, cpsr := { s.cpsr with it := itNext s.cpsr } })
      ∧ (s.impl.secExt = true → ∀ imm4, exec (.smcA1 cond imm4) s
        = .next { s with pc := s.pc + BitVec.ofNat 32 s.impl.iLen.smcA1, cpsr := { s.cpsr with it := itNext s.cpsr } })

/-- R58: the immediates of SVC, SMC and HVC change nothing. -/
def Obligations.CallImmediatesChangeNothing : Prop :=
  ∀ s : State,
    (∀ cond x y, exec (.svcA1 cond x) s = exec (.svcA1 cond y) s)
      ∧ (∀ x y, exec (.svcT1 x) s = exec (.svcT1 y) s)
      ∧ (∀ cond x y, exec (.smcA1 cond x) s = exec (.smcA1 cond y) s)
      ∧ (∀ x y, exec (.smcT1 x) s = exec (.smcT1 y) s)
      ∧ (∀ x y, exec (.hvcA1 x) s = exec (.hvcA1 y) s)
      ∧ ∀ x y, exec (.hvcT1 x) s = exec (.hvcT1 y) s

/-! ### SRS and CPS (spec/41_handler_support.md) -/

/-- R70: the lowest address of the two words, for DA, DB, IA and IB. -/
def Obligations.SrsAddressingModes : Prop :=
  ∀ base : Word, srsAddress false false base = base - 4#32 ∧ srsAddress true false base = base - 8#32
    ∧ srsAddress false true base = base ∧ srsAddress true true base = base + 4#32

/-- R70: an SRS operand names the stack of any PL1 mode: System mode's is among them by the model's choice
(notes/assumptions/8.md), Monitor mode's in Secure state only (notes/assumptions/20.md), User and Hyp mode's never; a
number that is no mode's names none. -/
def Obligations.SrsStackModes : Prop :=
  ∀ s : State,
    (∀ k : Mode, k.pl = .pl1 → k ≠ .monitor → srsStackMode s k.bits = some k)
      ∧ srsStackMode s Mode.monitor.bits
        = (if s.impl.secExt = true ∧ s.isSecure = true then some .monitor else none)
      ∧ srsStackMode s Mode.user.bits = none ∧ srsStackMode s Mode.hyp.bits = none
      ∧ ∀ b : BitVec 5, (∀ k : Mode, k.bits ≠ b) → srsStackMode s b = none

/-- R70: SRS in a PL1 mode that has a return state, naming a PL1 mode's stack, at a word-aligned address outside the
vector tables, stores LINK and SPSR of the current mode there, writes the stack pointer back where asked, and changes
nothing else (stack pointers: notes/assumptions/9.md; the two words: 19.md). -/
def Obligations.SrsStoresTheReturnState : Prop :=
  ∀ (s : State) (m : ExcMode) (mode : BitVec 5) (stack : Mode) (w : Bool),
    s.cpsr.mode.excMode = some m → m ≠ .hyp → srsStackMode s mode = some stack →
    (∀ p u, (srsAddress p u (s.spOf stack)).extractLsb' 0 2 = 0#2 →
        hitsVectorTable s s.regime (srsAddress p u (s.spOf stack)) 8 = false →
        ∃ t, exec (.srsA1 p u w mode) s = .next t
          ∧ ReturnStateStored s.impl.iLen.srsA1 m stack (srsAddress p u (s.spOf stack))
              (if w then some (if u then s.spOf stack + 8#32 else s.spOf stack - 8#32) else none) s t)
      ∧ ((s.spOf stack - 8#32).extractLsb' 0 2 = 0#2 →
        hitsVectorTable s s.regime (s.spOf stack - 8#32) 8 = false →
        ∃ t, exec (.srsT1 w mode) s = .next t
          ∧ ReturnStateStored s.impl.iLen.srsT1 m stack (s.spOf stack - 8#32)
              (if w then some (s.spOf stack - 8#32) else none) s t)
      ∧ ((s.spOf stack).extractLsb' 0 2 = 0#2 → hitsVectorTable s s.regime (s.spOf stack) 8 = false →
        ∃ t, exec (.srsT2 w mode) s = .next t
          ∧ ReturnStateStored s.impl.iLen.srsT2 m stack (s.spOf stack)
              (if w then some (s.spOf stack + 8#32) else none) s t)

/-- The model's choice where R47 is silent (notes/assumptions/21.md): at an address that is not word-aligned each form
of SRS either takes the Data Abort exception, or does as at an aligned one: it is refused where its eight bytes touch a
vector table (R53), and stores elsewhere. -/
def Obligations.SrsMisalignedAbortsOrStores : Prop :=
  ∀ (s : State) (m : ExcMode) (i : Instr) (p u w : Bool) (mode : BitVec 5) (stack : Mode), IsSrs p u w mode i →
    s.cpsr.mode.excMode = some m → m ≠ .hyp → srsStackMode s mode = some stack →
    (srsAddress p u (s.spOf stack)).extractLsb' 0 2 ≠ 0#2 →
    (hitsVectorTable s s.regime (srsAddress p u (s.spOf stack)) 8 = true →
      exec i s = takeException .dataAbort ⟨s.pc, s.cpsr.it⟩ s
        ∨ exec i s = .refused (.vectorTableStore (srsAddress p u (s.spOf stack))))
      ∧ (hitsVectorTable s s.regime (srsAddress p u (s.spOf stack)) 8 = false →
        exec i s = takeException .dataAbort ⟨s.pc, s.cpsr.it⟩ s
          ∨ ∃ t, exec i s = .next t
            ∧ ReturnStateStored (lengthOf s.impl.iLen i) m stack (srsAddress p u (s.spOf stack))
                (if w then some (if u then s.spOf stack + 8#32 else s.spOf stack - 8#32) else none) s t)

/-- Where SRS, in each of its three encodings, does not store: it is refused in User and System mode, which have no
return state (the model's choice, notes/assumptions/18.md), with an operand that names no PL1 mode's stack
(notes/assumptions/20.md), and into a vector table (R53); in Hyp mode it is undefined (notes/assumptions/18.md). -/
def Obligations.SrsStopsAndTraps : Prop :=
  ∀ (s : State) (i : Instr) (p u w : Bool) (mode : BitVec 5), IsSrs p u w mode i →
    ((s.cpsr.mode = .user ∨ s.cpsr.mode = .system) → exec i s = .refused .srsNoReturnState)
      ∧ (s.cpsr.mode = .hyp → exec i s = takeException .undefinedInstruction ⟨s.pc, s.cpsr.it⟩ s)
      ∧ (s.cpsr.mode.pl = .pl1 → s.cpsr.mode ≠ .system →
        (srsStackMode s mode = none → exec i s = .refused (.srsStackMode mode))
          ∧ ∀ stack, srsStackMode s mode = some stack →
            (srsAddress p u (s.spOf stack)).extractLsb' 0 2 = 0#2 →
            hitsVectorTable s s.regime (srsAddress p u (s.spOf stack)) 8 = true →
            exec i s = .refused (.vectorTableStore (srsAddress p u (s.spOf stack))))

/-- R57, R70: SRSDB and SRSIA of the Thumb set do what SRS of the ARM set does before-decrement and after-increment,
where the implementation gives them its length (R6). -/
def Obligations.ThumbSrsIsArmSrs : Prop :=
  ∀ (s : State) (w : Bool) (mode : BitVec 5),
    (s.impl.iLen.srsT1 = s.impl.iLen.srsA1 → exec (.srsT1 w mode) s = exec (.srsA1 true false w mode) s)
      ∧ (s.impl.iLen.srsT2 = s.impl.iLen.srsA1 → exec (.srsT2 w mode) s = exec (.srsA1 false true w mode) s)

/-- R71: CPS with `M` in a PL1 or PL2 mode changes the mode to its operand, the mask bits as `imod` says, and nothing
else but the pc and the IT bits. That it runs in Hyp mode is the model's reading: R71's pseudocode against R131's "by
CPS between PL1 modes" (DEDUCED, notes/assumptions/24.md); that System mode is a mode, and so a target, is the model's
too (PRESUMED, notes/assumptions/8.md). -/
def Obligations.CpsChangesMode : Prop :=
  ∀ (s : State) (imod : BitVec 2) (a i f : Bool) (k : Mode),
    s.cpsr.mode ≠ .user → k ≠ .user → k ≠ .monitor → k ≠ .hyp →
    ∀ masks, masks = (if imod = 0b10#2 then s.cpsr.masks.diff ⟨a, i, f⟩
        else if imod = 0b11#2 then s.cpsr.masks.union ⟨a, i, f⟩ else s.cpsr.masks) →
      exec (.cpsA1 imod true a i f k.bits) s = .next { s with
          pc := s.pc + BitVec.ofNat 32 s.impl.iLen.cpsA1
          cpsr := { s.cpsr with mode := k, masks := masks, it := itNext s.cpsr } }
        ∧ exec (.cpsT2 imod true a i f k.bits) s = .next { s with
          pc := s.pc + BitVec.ofNat 32 s.impl.iLen.cpsT2
          cpsr := { s.cpsr with mode := k, masks := masks, it := itNext s.cpsr } }

/-- R71: CPS without `M` outside User mode changes the selected mask bits only: `10` clears them, `11` sets them, and so
do `im` 0 and 1 of the 16-bit form. -/
def Obligations.CpsChangesMasks : Prop :=
  ∀ (s : State) (a i f : Bool) (mode : BitVec 5), s.cpsr.mode ≠ .user →
    (∀ imod masks, masks = (if imod = 0b10#2 then s.cpsr.masks.diff ⟨a, i, f⟩
        else if imod = 0b11#2 then s.cpsr.masks.union ⟨a, i, f⟩ else s.cpsr.masks) →
      exec (.cpsA1 imod false a i f mode) s = .next { s with
          pc := s.pc + BitVec.ofNat 32 s.impl.iLen.cpsA1, cpsr := { s.cpsr with masks := masks, it := itNext s.cpsr } }
        ∧ exec (.cpsT2 imod false a i f mode) s = .next { s with
          pc := s.pc + BitVec.ofNat 32 s.impl.iLen.cpsT2, cpsr := { s.cpsr with masks := masks, it := itNext s.cpsr } })
      ∧ exec (.cpsT1 false a i f) s = .next { s with
        pc := s.pc + BitVec.ofNat 32 s.impl.iLen.cpsT1
        cpsr := { s.cpsr with masks := s.cpsr.masks.diff ⟨a, i, f⟩, it := itNext s.cpsr } }
      ∧ exec (.cpsT1 true a i f) s = .next { s with
        pc := s.pc + BitVec.ofNat 32 s.impl.iLen.cpsT1
        cpsr := { s.cpsr with masks := s.cpsr.masks.union ⟨a, i, f⟩, it := itNext s.cpsr } }

/-- R71: in User mode CPS does nothing but go on to the next instruction. -/
def Obligations.CpsDoesNothingInUserMode : Prop :=
  ∀ (s : State) (imod : BitVec 2) (m a i f : Bool) (mode : BitVec 5), s.cpsr.mode = .user →
    exec (.cpsA1 imod m a i f mode) s
        = .next { s with pc := s.pc + BitVec.ofNat 32 s.impl.iLen.cpsA1, cpsr := { s.cpsr with it := itNext s.cpsr } }
      ∧ exec (.cpsT2 imod m a i f mode) s
        = .next { s with pc := s.pc + BitVec.ofNat 32 s.impl.iLen.cpsT2, cpsr := { s.cpsr with it := itNext s.cpsr } }
      ∧ exec (.cpsT1 m a i f) s
        = .next { s with pc := s.pc + BitVec.ofNat 32 s.impl.iLen.cpsT1, cpsr := { s.cpsr with it := itNext s.cpsr } }

/-- R71, D20: CPS outside User mode is refused when its target is User, Monitor, Hyp or no mode at all. -/
def Obligations.CpsRefusesItsForbiddenTargets : Prop :=
  ∀ (s : State) (imod : BitVec 2) (a i f : Bool) (mode : BitVec 5), s.cpsr.mode ≠ .user →
    (mode = Mode.user.bits ∨ mode = Mode.monitor.bits ∨ mode = Mode.hyp.bits ∨ ∀ k : Mode, k.bits ≠ mode) →
    exec (.cpsA1 imod true a i f mode) s = .refused (.cpsTarget mode)
      ∧ exec (.cpsT2 imod true a i f mode) s = .refused (.cpsTarget mode)

/-! ### Exception return (R125 to R130) -/

/-- R125, R128: a return to any mode that exists, Monitor mode from Secure state and Hyp mode from Non-secure state
included (notes/assumptions/25.md), without raising privilege and to an address aligned for the instruction set, writes
the pc and the CPSR at once and nothing else. -/
def Obligations.ReturnRestoresPcAndCpsr : Prop :=
  ∀ (s : State) (addr : Word) (psr : PSR) (rest : List Input), s.inputs = .ret addr psr :: rest →
    (psr.mode = .monitor → s.impl.secExt = true ∧ s.isSecure = true) →
    (psr.mode = .hyp → s.impl.virtExt = true ∧ s.isSecure = false) →
    psr.mode.pl.rank ≤ s.cpsr.mode.pl.rank →
    ((psr.iset = .arm ∧ addr.extractLsb' 0 2 = 0#2) ∨ (psr.iset = .thumb ∧ addr.extractLsb' 0 1 = 0#1)) →
    step s = .next { s with pc := addr, cpsr := psr, inputs := rest }

/-- R125, R128, D20: a return that breaks a premise is refused: a mode this configuration lacks, a higher privilege
level, Monitor mode from Non-secure state (the model's choice, notes/assumptions/25.md), a misaligned address. -/
def Obligations.IllegalReturnIsRefused : Prop :=
  ∀ (s : State) (addr : Word) (psr : PSR),
    ((psr.mode = .monitor ∧ s.impl.secExt = false) ∨ (psr.mode = .hyp ∧ s.impl.virtExt = false)
      ∨ s.cpsr.mode.pl.rank < psr.mode.pl.rank ∨ (psr.mode = .monitor ∧ s.isSecure = false)
      ∨ (psr.iset = .arm ∧ addr.extractLsb' 0 2 ≠ 0#2)
      ∨ (psr.iset = .thumb ∧ addr.extractLsb' 0 1 ≠ 0#1)) →
    ∃ r, exceptionReturn addr psr s = .refused r

/-- R127: the hardware does not adjust the IT bits on return: they are `psr.IT` whatever the address. -/
def Obligations.ReturnDoesNotAdjustIT : Prop :=
  ∀ (s t : State) (addr : Word) (psr : PSR), exceptionReturn addr psr s = .next t →
    t.cpsr.it = psr.it ∧ t.scr = s.scr

/-- R125, R128: after any exception, a return to the link value minus its offset, with the saved SPSR, resumes at the
preferred return address with the old CPSR and the IT bits correct for that address; from Monitor mode SCR.NS stays
cleared. Left out is an exception taken from Hyp mode to another mode, whose return would raise privilege. -/
def Obligations.ReturnAfterEntryResumes : Prop :=
  ∀ (e : Exc) (ctx : Ctx) (s t : State) (tgt : ExcMode), takeException e ctx s = .next t → targetMode e s = .ok tgt →
    (s.cpsr.mode = .monitor → s.impl.secExt = true) →
    (s.cpsr.mode = .hyp → tgt = .hyp ∧ s.impl.virtExt = true ∧ s.isSecure = false) →
    pcAligned s.cpsr.iset ctx.prefReturn = true →
    ∃ u, exceptionReturn (t.link.get tgt - linkOffset e tgt.pl s.cpsr.iset) (t.spsr.get tgt) t = .next u
      ∧ u.pc = ctx.prefReturn ∧ u.cpsr = { s.cpsr with it := ctx.itAtPref }
      ∧ u.scr = if s.cpsr.mode = .monitor then { s.scr with ns := false } else s.scr

/-- R130: an SVC, ARM or Thumb, taken from any mode to Supervisor mode, and one inside its handler: the second
overwrites the return state the first saved, and no other mode's. -/
def Obligations.NestedCallOverwritesItsOwnMode : Prop :=
  ∀ (s t u : State) (i j : Instr), IsTakenSvc i s → IsTakenSvc j t →
    exec i s = .next t → t.cpsr.mode = .supervisor → exec j t = .next u →
    t.link.get .supervisor
        = s.pc + BitVec.ofNat 32 (lengthOf s.impl.iLen i) + linkOffset .supervisorCall .pl1 s.cpsr.iset
      ∧ t.spsr.get .supervisor = { s.cpsr with it := itNext s.cpsr }
      ∧ u.link.get .supervisor
        = t.pc + BitVec.ofNat 32 (lengthOf t.impl.iLen j) + linkOffset .supervisorCall .pl1 t.cpsr.iset
      ∧ u.spsr.get .supervisor = { t.cpsr with it := itNext t.cpsr }
      ∧ ∀ k : ExcMode, k ≠ .supervisor → u.link.get k = s.link.get k ∧ u.spsr.get k = s.spsr.get k

/-! ### The whole machine -/

/-- Every step keeps a state legal: the implementation meets R2, the current mode exists, Hyp mode is Non-secure (R13),
and every address space keeps its canonical form. For an exception return and the abstract Execute this rests on the
model's choices (notes/assumptions/25.md, 34.md). -/
def Obligations.StepKeepsLegal : Prop :=
  ∀ s t : State, Legal s → step s = .next t → Legal t

/-- `State.reset` is legal. -/
def Obligations.ResetIsLegal : Prop := Legal State.reset

/-- R15, R114, R131: from Non-secure state only a reset, entry to Monitor mode, or software that itself clears SCR.NS
(the abstract Execute, notes/assumptions/34.md) leads to Secure state; an exception return does not, by the model's
choice (notes/assumptions/25.md). -/
def Obligations.SecureStateOnlyThroughMonitor : Prop :=
  ∀ s t : State, step s = .next t → s.isSecure = false → (∀ d rest, s.inputs ≠ .reset d :: rest) →
    (∀ ws next rest, s.inputs = .execute ws next :: rest → RegWrite.scrNS false ∉ ws) →
    t.isSecure = true → t.cpsr.mode = .monitor

/-- No step changes the implementation (R32), and, with what the model lets software write (notes/assumptions/34.md), no
step but reset or the abstract Execute writes SCTLR, VBAR, MVBAR, HVBAR, SCR.IRQ, SCR.FIQ or HCR. -/
def Obligations.ControlRegistersWrittenBySoftwareOnly : Prop :=
  ∀ s t : State, step s = .next t →
    t.impl = s.impl
      ∧ ((∀ d rest, s.inputs ≠ .reset d :: rest) → (∀ ws next rest, s.inputs ≠ .execute ws next :: rest) →
        t.sctlrS = s.sctlrS ∧ t.sctlrNS = s.sctlrNS ∧ t.vbarS = s.vbarS ∧ t.vbarNS = s.vbarNS
          ∧ t.mvbar = s.mvbar ∧ t.hvbar = s.hvbar ∧ t.scr.irq = s.scr.irq ∧ t.scr.fiq = s.scr.fiq
          ∧ t.hcr = s.hcr)

/-- R131: a step leaves User mode by taking an exception, a reset among them, and in no other way: not by an exception
return, nor by the abstract Execute (notes/assumptions/34.md). Each of the twelve instructions that completes in User
mode takes an exception or changes nothing but the pc and the IT bits. -/
def Obligations.UserModeIsLeftByExceptionOnly : Prop :=
  (∀ s t : State, step s = .next t → s.cpsr.mode = .user → t.cpsr.mode ≠ .user →
      (∃ e ctx rest n, takeException e ctx { s with inputs := rest, draws := n } = .next t)
        ∨ ∃ d rest, s.inputs = .reset d :: rest ∧ takeReset d { s with inputs := rest } = .next t)
    ∧ ∀ (i : Instr) (s t : State), exec i s = .next t → s.cpsr.mode = .user →
      (∃ e ctx, takeException e ctx s = .next t ∧ t.cpsr.mode ≠ .user)
        ∨ t = { s with
            pc := s.pc + BitVec.ofNat 32 (lengthOf s.impl.iLen i)
            cpsr := { s.cpsr with it := itNext s.cpsr } }

/-- R41 (the address spaces as disjoint: notes/assumptions/5.md): an instruction writes no address space but that of its
own mode; in particular Non-secure code writes no Secure memory. -/
def Obligations.InstructionsWriteOwnAddressSpaceOnly : Prop :=
  ∀ (i : Instr) (s t : State) (r : Regime), exec i s = .next t → r ≠ s.regime → t.mem r = s.mem r

/-- R53 (the tables meant: notes/assumptions/23.md): no instruction changes a byte of a vector table of its own address
space. -/
def Obligations.VectorTablesAreNotWritten : Prop :=
  ∀ (i : Instr) (s t : State) (base x : Word), exec i s = .next t → base ∈ tableBases s s.regime →
    (x - base).toNat < 32 → (t.mem s.regime).read x = (s.mem s.regime).read x

/-- R53, U15: an exception taken through a table, with a base that is a multiple of 32, that the program has stored to
since launch is refused, and so is a reset (how the model says it: notes/assumptions/23.md). -/
def Obligations.EntryThroughAStoredTableIsRefused : Prop :=
  (∀ (e : Exc) (ctx : Ctx) (s : State) (tgt : ExcMode), targetMode e s = .ok tgt → UsesTable e tgt s →
      (tableUsed tgt s).2.extractLsb' 0 5 = 0#5 → tableStored s (tableUsed tgt s).1 (tableUsed tgt s).2 = true →
      takeException e ctx s = .refused (.vectorTableStored (tableUsed tgt s).2))
    ∧ ∀ (d : ResetDraw) (s : State) (base : Word),
      base = (if d.resetV then 0xFFFF0000#32 else if s.impl.secExt then d.resetVbarS else 0x00000000#32) →
      base.extractLsb' 0 5 = 0#5 → tableStored s .securePL1 base = true →
      takeReset d s = .refused (.vectorTableStored base)

/-- R53 (notes/assumptions/23.md): the record of stores misses none: a byte that a step changes is in it afterwards, and
nothing leaves it. -/
def Obligations.StoredBytesAreRecorded : Prop :=
  ∀ s t : State, step s = .next t →
    (∀ p ∈ s.stored, p ∈ t.stored)
      ∧ ∀ (r : Regime) (x : Word), (t.mem r).read x ≠ (s.mem r).read x → (r, x) ∈ t.stored

/-- R53: the vectors are program text fixed at launch. Whatever memory a run was launched with, every step keeps the
bytes that are not stored to as they were, and every byte of the table that an exception, or a reset, is taken through
is one of them. The record of stores is the model's (notes/assumptions/23.md), and so is that memory survives a reset
(notes/assumptions/32.md). -/
def Obligations.VectorsAreFixedAtLaunch : Prop :=
  ∀ l : Regime → Memory,
    (∀ s t : State, AsLaunched l s → step s = .next t → AsLaunched l t)
      ∧ (∀ (e : Exc) (ctx : Ctx) (s t : State) (tgt : ExcMode), AsLaunched l s → targetMode e s = .ok tgt →
        UsesTable e tgt s → takeException e ctx s = .next t →
        ∀ x : Word, (x - (tableUsed tgt s).2).toNat < 32 →
          (t.mem (tableUsed tgt s).1).read x = (l (tableUsed tgt s).1).read x)
      ∧ ∀ (d : ResetDraw) (s t : State) (base : Word), AsLaunched l s → takeReset d s = .next t →
        base = (if d.resetV then 0xFFFF0000#32 else if s.impl.secExt then d.resetVbarS else 0x00000000#32) →
        ∀ x : Word, (x - base).toNat < 32 → (t.mem .securePL1).read x = (l .securePL1).read x

/-! ### The abstract Execute -/

/-- R5, D1, U14 (its form: notes/assumptions/34.md): an ordinary instruction whose writes are to registers this
configuration has completes. Each register written holds the last value written to it, where the spec gives it one (R19:
notes/assumptions/47.md); every other register, and memory, is as before. One that stores a byte outside the vector
tables completes with that byte, and leaves every register. -/
def Obligations.ExecuteCompletesWithItsWrites : Prop :=
  ∀ (s : State) (ws : List RegWrite) (next : Word) (rest : List Input), s.inputs = .execute ws next :: rest →
    ((∀ w ∈ ws, MayWrite s w) → ∃ t, step s = .next t ∧ GoesOn next rest s t
        ∧ (∀ pre w post, ws = pre ++ w :: post → (∀ v ∈ post, placeOf v ≠ placeOf w) → HasStatedValue s.impl w →
          Holds w t)
        ∧ (∀ w, (∀ v ∈ ws, placeOf v ≠ placeOf w) → Holds w s → Holds w t)
        ∧ SameMemory s t ∧ t.stored = s.stored)
      ∧ ∀ r a b, ws = [.store r a b] → Impl.hasRegime s.impl r = true → hitsVectorTable s r a 1 = false →
        ∃ t, step s = .next t ∧ GoesOn next rest s t ∧ (t.mem r).read a = some b
          ∧ (∀ w, placeOf w ≠ .store r a 0#8 → Holds w s → Holds w t)
          ∧ SameMemoryOutside r a 1 s t ∧ ∀ p, p ∈ t.stored ↔ p ∈ s.stored ∨ p = (r, a)
end

