-- ==== Sys2Proof/Laws/State.lean ====
section
/-! SUPPORT. The small lemmas of the state: banks, and one lemma per field per update of the shared operations. -/

namespace Sys2Proof

@[simp] theorem Bank.get_set_same {α : Type} (b : Bank α) (m : ExcMode) (x : α) : (b.set m x).get m = x := by
  cases m <;> rfl

@[simp] theorem Bank.get_set_other {α : Type} (b : Bank α) {m k : ExcMode} (x : α) (h : k ≠ m) :
    (b.set m x).get k = b.get k := by
  cases m <;> cases k <;> first | rfl | exact absurd rfl h

@[simp] theorem Bank.set_set {α : Type} (b : Bank α) (m : ExcMode) (x y : α) :
    (b.set m x).set m y = b.set m y := by
  cases m <;> rfl

@[simp] theorem ExcMode.excMode_toMode (m : ExcMode) : m.toMode.excMode = some m := by
  cases m <;> rfl

theorem Mode.toMode_of_excMode {m : Mode} {x : ExcMode} (h : m.excMode = some x) : x.toMode = m := by
  cases m <;> cases h <;> rfl

@[simp] theorem Mode.ofBits_bits (m : Mode) : Mode.ofBits m.bits = some m := by
  cases m <;> decide

@[simp] theorem Masks.union_none (x : Masks) : x.union .none = x := by
  cases x; simp [Masks.union, Masks.none]

namespace Machine

/-! ### Address spaces -/

@[simp] theorem setMem_mem_same (s : State) (r : Regime) (m : Memory) : (s.setMem r m).mem r = m := by
  cases r <;> rfl

@[simp] theorem setMem_mem_other (s : State) {r k : Regime} (m : Memory) (h : k ≠ r) :
    (s.setMem r m).mem k = s.mem k := by
  cases r <;> cases k <;> first | rfl | exact absurd rfl h

@[simp] theorem setMem_impl (s : State) (r : Regime) (m : Memory) : (s.setMem r m).impl = s.impl := by cases r <;> rfl
@[simp] theorem setMem_pc (s : State) (r : Regime) (m : Memory) : (s.setMem r m).pc = s.pc := by cases r <;> rfl
@[simp] theorem setMem_cpsr (s : State) (r : Regime) (m : Memory) : (s.setMem r m).cpsr = s.cpsr := by cases r <;> rfl
@[simp] theorem setMem_spsr (s : State) (r : Regime) (m : Memory) : (s.setMem r m).spsr = s.spsr := by cases r <;> rfl
@[simp] theorem setMem_link (s : State) (r : Regime) (m : Memory) : (s.setMem r m).link = s.link := by cases r <;> rfl
@[simp] theorem setMem_sp (s : State) (r : Regime) (m : Memory) : (s.setMem r m).sp = s.sp := by cases r <;> rfl
@[simp] theorem setMem_spUsr (s : State) (r : Regime) (m : Memory) : (s.setMem r m).spUsr = s.spUsr := by
  cases r <;> rfl
@[simp] theorem setMem_sctlrS (s : State) (r : Regime) (m : Memory) : (s.setMem r m).sctlrS = s.sctlrS := by
  cases r <;> rfl
@[simp] theorem setMem_sctlrNS (s : State) (r : Regime) (m : Memory) : (s.setMem r m).sctlrNS = s.sctlrNS := by
  cases r <;> rfl
@[simp] theorem setMem_vbarS (s : State) (r : Regime) (m : Memory) : (s.setMem r m).vbarS = s.vbarS := by
  cases r <;> rfl
@[simp] theorem setMem_vbarNS (s : State) (r : Regime) (m : Memory) : (s.setMem r m).vbarNS = s.vbarNS := by
  cases r <;> rfl
@[simp] theorem setMem_mvbar (s : State) (r : Regime) (m : Memory) : (s.setMem r m).mvbar = s.mvbar := by
  cases r <;> rfl
@[simp] theorem setMem_hvbar (s : State) (r : Regime) (m : Memory) : (s.setMem r m).hvbar = s.hvbar := by
  cases r <;> rfl
@[simp] theorem setMem_scr (s : State) (r : Regime) (m : Memory) : (s.setMem r m).scr = s.scr := by cases r <;> rfl
@[simp] theorem setMem_hcr (s : State) (r : Regime) (m : Memory) : (s.setMem r m).hcr = s.hcr := by cases r <;> rfl
@[simp] theorem setMem_pending (s : State) (r : Regime) (m : Memory) : (s.setMem r m).pending = s.pending := by
  cases r <;> rfl
@[simp] theorem setMem_stored (s : State) (r : Regime) (m : Memory) : (s.setMem r m).stored = s.stored := by
  cases r <;> rfl
@[simp] theorem setMem_inputs (s : State) (r : Regime) (m : Memory) : (s.setMem r m).inputs = s.inputs := by
  cases r <;> rfl
@[simp] theorem setMem_draws (s : State) (r : Regime) (m : Memory) : (s.setMem r m).draws = s.draws := by
  cases r <;> rfl

/-! ### Stores by the program -/

@[simp] theorem store_mem_same (s : State) (r : Regime) (a : Word) (bs : List Byte) :
    (s.store r a bs).mem r = (s.mem r).writeBytes a bs := by cases r <;> rfl

@[simp] theorem store_mem_other (s : State) {r k : Regime} (a : Word) (bs : List Byte) (h : k ≠ r) :
    (s.store r a bs).mem k = s.mem k := by
  cases r <;> cases k <;> first | rfl | exact absurd rfl h

@[simp] theorem store_stored (s : State) (r : Regime) (a : Word) (bs : List Byte) :
    (s.store r a bs).stored = markStored s.stored r a bs.length := rfl

/-- A store changes one address space and the record of stores, and nothing else. -/
theorem store_eq (s : State) (r : Regime) (a : Word) (bs : List Byte) :
    s.store r a bs
      = { s.setMem r ((s.mem r).writeBytes a bs) with stored := markStored s.stored r a bs.length } := rfl

@[simp] theorem store_impl (s : State) (r : Regime) (a : Word) (bs : List Byte) :
    (s.store r a bs).impl = s.impl := by cases r <;> rfl
@[simp] theorem store_pc (s : State) (r : Regime) (a : Word) (bs : List Byte) :
    (s.store r a bs).pc = s.pc := by cases r <;> rfl
@[simp] theorem store_cpsr (s : State) (r : Regime) (a : Word) (bs : List Byte) :
    (s.store r a bs).cpsr = s.cpsr := by cases r <;> rfl
@[simp] theorem store_spsr (s : State) (r : Regime) (a : Word) (bs : List Byte) :
    (s.store r a bs).spsr = s.spsr := by cases r <;> rfl
@[simp] theorem store_link (s : State) (r : Regime) (a : Word) (bs : List Byte) :
    (s.store r a bs).link = s.link := by cases r <;> rfl
@[simp] theorem store_sp (s : State) (r : Regime) (a : Word) (bs : List Byte) :
    (s.store r a bs).sp = s.sp := by cases r <;> rfl
@[simp] theorem store_spUsr (s : State) (r : Regime) (a : Word) (bs : List Byte) :
    (s.store r a bs).spUsr = s.spUsr := by cases r <;> rfl
@[simp] theorem store_sctlrS (s : State) (r : Regime) (a : Word) (bs : List Byte) :
    (s.store r a bs).sctlrS = s.sctlrS := by cases r <;> rfl
@[simp] theorem store_sctlrNS (s : State) (r : Regime) (a : Word) (bs : List Byte) :
    (s.store r a bs).sctlrNS = s.sctlrNS := by cases r <;> rfl
@[simp] theorem store_vbarS (s : State) (r : Regime) (a : Word) (bs : List Byte) :
    (s.store r a bs).vbarS = s.vbarS := by cases r <;> rfl
@[simp] theorem store_vbarNS (s : State) (r : Regime) (a : Word) (bs : List Byte) :
    (s.store r a bs).vbarNS = s.vbarNS := by cases r <;> rfl
@[simp] theorem store_mvbar (s : State) (r : Regime) (a : Word) (bs : List Byte) :
    (s.store r a bs).mvbar = s.mvbar := by cases r <;> rfl
@[simp] theorem store_hvbar (s : State) (r : Regime) (a : Word) (bs : List Byte) :
    (s.store r a bs).hvbar = s.hvbar := by cases r <;> rfl
@[simp] theorem store_scr (s : State) (r : Regime) (a : Word) (bs : List Byte) :
    (s.store r a bs).scr = s.scr := by cases r <;> rfl
@[simp] theorem store_hcr (s : State) (r : Regime) (a : Word) (bs : List Byte) :
    (s.store r a bs).hcr = s.hcr := by cases r <;> rfl
@[simp] theorem store_pending (s : State) (r : Regime) (a : Word) (bs : List Byte) :
    (s.store r a bs).pending = s.pending := by cases r <;> rfl
@[simp] theorem store_inputs (s : State) (r : Regime) (a : Word) (bs : List Byte) :
    (s.store r a bs).inputs = s.inputs := by cases r <;> rfl
@[simp] theorem store_draws (s : State) (r : Regime) (a : Word) (bs : List Byte) :
    (s.store r a bs).draws = s.draws := by cases r <;> rfl

@[simp] theorem store_fetchOrder (s : State) (r : Regime) (a : Word) (bs : List Byte) :
    (s.store r a bs).fetchOrder = s.fetchOrder := by cases r <;> rfl
@[simp] theorem setMem_fetchOrder (s : State) (r : Regime) (m : Memory) : (s.setMem r m).fetchOrder = s.fetchOrder := by
  cases r <;> rfl

/-! ### SCTLR.VE -/

@[simp] theorem veAfterWrite_false (c : Impl) : veAfterWrite c false = false := by simp [veAfterWrite]
@[simp] theorem veAfterWrite_of_vecIrq {c : Impl} (h : c.vecIrq = true) (b : Bool) : veAfterWrite c b = b := by
  simp [veAfterWrite, h]

/-! ### Stack pointers -/

@[simp] theorem spOf_setSp_same (s : State) (m : Mode) (w : Word) : (s.setSp m w).spOf m = w := by
  cases m <;> rfl

/-- `setSp` writes only the two fields that hold stack pointers. -/
theorem setSp_frame (s : State) (m : Mode) (w : Word) :
    ∃ b u, s.setSp m w = { s with sp := b, spUsr := u } := by
  unfold State.setSp
  split
  · exact ⟨_, s.spUsr, rfl⟩
  · exact ⟨s.sp, w, rfl⟩

@[simp] theorem setSp_impl (s : State) (m : Mode) (w : Word) : (s.setSp m w).impl = s.impl := by cases m <;> rfl
@[simp] theorem setSp_pc (s : State) (m : Mode) (w : Word) : (s.setSp m w).pc = s.pc := by cases m <;> rfl
@[simp] theorem setSp_cpsr (s : State) (m : Mode) (w : Word) : (s.setSp m w).cpsr = s.cpsr := by cases m <;> rfl
@[simp] theorem setSp_spsr (s : State) (m : Mode) (w : Word) : (s.setSp m w).spsr = s.spsr := by cases m <;> rfl
@[simp] theorem setSp_link (s : State) (m : Mode) (w : Word) : (s.setSp m w).link = s.link := by cases m <;> rfl
@[simp] theorem setSp_scr (s : State) (m : Mode) (w : Word) : (s.setSp m w).scr = s.scr := by cases m <;> rfl
@[simp] theorem setSp_stored (s : State) (m : Mode) (w : Word) : (s.setSp m w).stored = s.stored := by cases m <;> rfl
@[simp] theorem setSp_mem (s : State) (m : Mode) (w : Word) (r : Regime) : (s.setSp m w).mem r = s.mem r := by
  cases m <;> cases r <;> rfl

/-! ### Going on in line -/

@[simp] theorem advance_impl (n : Nat) (s : State) : (advance n s).impl = s.impl := rfl
@[simp] theorem advance_pc (n : Nat) (s : State) : (advance n s).pc = s.pc + BitVec.ofNat 32 n := rfl
@[simp] theorem advance_mode (n : Nat) (s : State) : (advance n s).cpsr.mode = s.cpsr.mode := rfl
@[simp] theorem advance_masks (n : Nat) (s : State) : (advance n s).cpsr.masks = s.cpsr.masks := rfl
@[simp] theorem advance_iset (n : Nat) (s : State) : (advance n s).cpsr.iset = s.cpsr.iset := rfl
@[simp] theorem advance_it (n : Nat) (s : State) : (advance n s).cpsr.it = itNext s.cpsr := rfl
@[simp] theorem advance_spsr (n : Nat) (s : State) : (advance n s).spsr = s.spsr := rfl
@[simp] theorem advance_link (n : Nat) (s : State) : (advance n s).link = s.link := rfl
@[simp] theorem advance_sp (n : Nat) (s : State) : (advance n s).sp = s.sp := rfl
@[simp] theorem advance_spUsr (n : Nat) (s : State) : (advance n s).spUsr = s.spUsr := rfl
@[simp] theorem advance_scr (n : Nat) (s : State) : (advance n s).scr = s.scr := rfl
@[simp] theorem advance_hcr (n : Nat) (s : State) : (advance n s).hcr = s.hcr := rfl
@[simp] theorem advance_pending (n : Nat) (s : State) : (advance n s).pending = s.pending := rfl
@[simp] theorem advance_sctlrS (n : Nat) (s : State) : (advance n s).sctlrS = s.sctlrS := rfl
@[simp] theorem advance_sctlrNS (n : Nat) (s : State) : (advance n s).sctlrNS = s.sctlrNS := rfl
@[simp] theorem advance_vbarS (n : Nat) (s : State) : (advance n s).vbarS = s.vbarS := rfl
@[simp] theorem advance_vbarNS (n : Nat) (s : State) : (advance n s).vbarNS = s.vbarNS := rfl
@[simp] theorem advance_mvbar (n : Nat) (s : State) : (advance n s).mvbar = s.mvbar := rfl
@[simp] theorem advance_hvbar (n : Nat) (s : State) : (advance n s).hvbar = s.hvbar := rfl
@[simp] theorem advance_stored (n : Nat) (s : State) : (advance n s).stored = s.stored := rfl
@[simp] theorem advance_mem (n : Nat) (s : State) (r : Regime) : (advance n s).mem r = s.mem r := by cases r <;> rfl

/-- Outside an If-Then block the IT bits do not move (R17). -/
theorem itNext_zero {p : PSR} (h : p.it = 0#8) : itNext p = 0#8 := by simp [itNext, h]

/-- In ARM state the IT bits do not move (R17). -/
theorem itNext_arm {p : PSR} (h : p.iset = .arm) : itNext p = p.it := by simp [itNext, h]

/-! ### Exception entry, field by field (R110) -/

section entryFields

variable (e : Exc) (ctx : Ctx) (tgt : ExcMode) (vec : Word) (s : State)

@[simp] theorem enter_impl : (enter e ctx tgt vec s).impl = s.impl := rfl
@[simp] theorem enter_pc : (enter e ctx tgt vec s).pc = vec := rfl
@[simp] theorem enter_cpsr : (enter e ctx tgt vec s).cpsr = entryCpsr e tgt s := rfl
@[simp] theorem enter_spsr :
    (enter e ctx tgt vec s).spsr = s.spsr.set tgt { s.cpsr with it := ctx.itAtPref } := rfl
@[simp] theorem enter_link :
    (enter e ctx tgt vec s).link = s.link.set tgt (ctx.prefReturn + linkOffset e tgt.pl s.cpsr.iset) := rfl
@[simp] theorem enter_sp : (enter e ctx tgt vec s).sp = s.sp := rfl
@[simp] theorem enter_spUsr : (enter e ctx tgt vec s).spUsr = s.spUsr := rfl
@[simp] theorem enter_sctlrS : (enter e ctx tgt vec s).sctlrS = s.sctlrS := rfl
@[simp] theorem enter_sctlrNS : (enter e ctx tgt vec s).sctlrNS = s.sctlrNS := rfl
@[simp] theorem enter_vbarS : (enter e ctx tgt vec s).vbarS = s.vbarS := rfl
@[simp] theorem enter_vbarNS : (enter e ctx tgt vec s).vbarNS = s.vbarNS := rfl
@[simp] theorem enter_mvbar : (enter e ctx tgt vec s).mvbar = s.mvbar := rfl
@[simp] theorem enter_hvbar : (enter e ctx tgt vec s).hvbar = s.hvbar := rfl
@[simp] theorem enter_scr : (enter e ctx tgt vec s).scr = { s.scr with ns := nsAfterEntry s } := rfl
@[simp] theorem enter_hcr : (enter e ctx tgt vec s).hcr = s.hcr := rfl
@[simp] theorem enter_pending : (enter e ctx tgt vec s).pending = s.pending := rfl
@[simp] theorem enter_memS : (enter e ctx tgt vec s).memS = s.memS := rfl
@[simp] theorem enter_memNS : (enter e ctx tgt vec s).memNS = s.memNS := rfl
@[simp] theorem enter_memHyp : (enter e ctx tgt vec s).memHyp = s.memHyp := rfl
@[simp] theorem enter_mem (r : Regime) : (enter e ctx tgt vec s).mem r = s.mem r := by cases r <;> rfl
@[simp] theorem enter_stored : (enter e ctx tgt vec s).stored = s.stored := rfl
@[simp] theorem enter_inputs : (enter e ctx tgt vec s).inputs = s.inputs := rfl

end entryFields

@[simp] theorem entryCpsr_mode (e : Exc) (tgt : ExcMode) (s : State) : (entryCpsr e tgt s).mode = tgt.toMode := rfl
@[simp] theorem entryCpsr_it (e : Exc) (tgt : ExcMode) (s : State) : (entryCpsr e tgt s).it = 0#8 := rfl

/-! ### Reset, field by field (R140) -/

@[simp] theorem resetRegisters_impl (d : ResetDraw) (s : State) : (resetRegisters d s).impl = s.impl := rfl
@[simp] theorem resetRegisters_mode (d : ResetDraw) (s : State) : (resetRegisters d s).cpsr.mode = .supervisor := rfl
@[simp] theorem resetRegisters_scr (d : ResetDraw) (s : State) :
    (resetRegisters d s).scr = ⟨false, d.scrIrq, d.scrFiq⟩ := rfl
@[simp] theorem resetRegisters_stored (d : ResetDraw) (s : State) : (resetRegisters d s).stored = s.stored := rfl
@[simp] theorem resetRegisters_mem (d : ResetDraw) (s : State) (r : Regime) :
    (resetRegisters d s).mem r = s.mem r := by cases r <;> rfl

/-- `State.reset` is `TakeReset()` with the named draw, from a machine with nothing in memory. -/
theorem takeReset_named : takeReset .named State.reset = .next State.reset := rfl

end Machine

end Sys2Proof
end

