-- ==== Sys2Proof/Laws/Memory.lean ====
section
/-! SUPPORT. Memory: every operation keeps the canonical form; a read after a write gives the value written, and
every other byte reads as before. -/

namespace Sys2Proof.Machine

theorem Memory.wfFrom_mono {m : Memory} {lo lo' : Nat} (h : lo' ≤ lo) (hm : Memory.wfFrom lo m = true) :
    Memory.wfFrom lo' m = true := by
  cases m with
  | nil => rfl
  | cons c r =>
    obtain ⟨k, v⟩ := c
    simp only [Memory.wfFrom, Bool.and_eq_true, decide_eq_true_eq] at hm ⊢
    exact ⟨⟨by omega, hm.1.2⟩, hm.2⟩

theorem Memory.write_wfFrom {m : Memory} {lo : Nat} (a : Word) (b : Byte) (hlo : lo ≤ a.toNat)
    (hm : Memory.wfFrom lo m = true) : Memory.wfFrom lo (m.write a b) = true := by
  induction m generalizing lo with
  | nil => have := a.isLt; simp [Memory.write, Memory.wfFrom]; omega
  | cons c r ih =>
    obtain ⟨k, v⟩ := c
    simp only [Memory.wfFrom, Bool.and_eq_true, decide_eq_true_eq] at hm
    obtain ⟨⟨hk, hk'⟩, hr⟩ := hm
    have := a.isLt
    unfold Memory.write
    split
    · simp only [Memory.wfFrom, Bool.and_eq_true, decide_eq_true_eq]
      exact ⟨⟨hlo, by omega⟩, ⟨by omega, hk'⟩, hr⟩
    · split
      · simp only [Memory.wfFrom, Bool.and_eq_true, decide_eq_true_eq]
        exact ⟨⟨hk, hk'⟩, hr⟩
      · simp only [Memory.wfFrom, Bool.and_eq_true, decide_eq_true_eq]
        exact ⟨⟨hk, hk'⟩, ih (by omega) hr⟩

/-- A write keeps the canonical form. -/
theorem Memory.write_wf {m : Memory} (a : Word) (b : Byte) (hm : m.wf = true) : (m.write a b).wf = true :=
  Memory.write_wfFrom a b (Nat.zero_le _) hm

theorem Memory.writeBytes_wf {m : Memory} (a : Word) (bs : List Byte) (hm : m.wf = true) :
    (m.writeBytes a bs).wf = true := by
  induction bs generalizing m a with
  | nil => exact hm
  | cons b bs ih => exact ih (a + 1) (Memory.write_wf a b hm)

theorem Memory.writeWord_wf {m : Memory} (o : Endian) (a w : Word) (hm : m.wf = true) :
    (m.writeWord o a w).wf = true :=
  Memory.writeBytes_wf a _ hm

/-- Every address space stays canonical when one is replaced by a canonical one. -/
theorem setMem_wf {s : State} {r : Regime} {m : Memory} (hm : m.wf = true)
    (hs : ∀ k, (s.mem k).wf = true) (k : Regime) : ((s.setMem r m).mem k).wf = true := by
  by_cases h : k = r
  · subst h; simpa using hm
  · simpa [h] using hs k

/-- Every address space stays canonical when the program stores to one. -/
theorem store_wf {s : State} (r : Regime) (a : Word) (bs : List Byte) (hs : ∀ k, (s.mem k).wf = true) (k : Regime) :
    ((s.store r a bs).mem k).wf = true := by
  by_cases h : k = r
  · subst h; simpa using Memory.writeBytes_wf a bs (hs k)
  · simpa [h] using hs k

/-- The record of stores holds what it held and the addresses stored to. -/
theorem mem_markStored {l : List (Regime × Word)} {r : Regime} {a : Word} {n : Nat} {p : Regime × Word} :
    p ∈ markStored l r a n ↔ p ∈ l ∨ ∃ k, k < n ∧ p = (r, a + BitVec.ofNat 32 k) := by
  induction n generalizing l a with
  | zero => simp [markStored]
  | succ n ih =>
    have head : p ∈ (if (r, a) ∈ l then l else (r, a) :: l) ↔ p ∈ l ∨ p = (r, a) := by
      split
      · exact ⟨.inl, fun h => h.elim id fun hp => hp ▸ ‹_›⟩
      · simp [or_comm]
    have next (k : Nat) : a + 1 + BitVec.ofNat 32 k = a + BitVec.ofNat 32 (k + 1) := by
      rw [BitVec.add_assoc]
      congr 1
      apply BitVec.eq_of_toNat_eq
      simp [Nat.add_comm]
    rw [markStored, ih, head, or_assoc]
    refine or_congr_right ⟨?_, ?_⟩
    · rintro (h | ⟨k, hk, h⟩)
      · exact ⟨0, by omega, by simpa using h⟩
      · exact ⟨k + 1, by omega, by rw [h, next]⟩
    · rintro ⟨_ | k, hk, h⟩
      · exact .inl (by simpa using h)
      · exact .inr ⟨k, by omega, by rw [h, next]⟩

theorem Memory.read_write_same (m : Memory) (a : Word) (b : Byte) : (m.write a b).read a = some b := by
  induction m with
  | nil => simp [Memory.write, Memory.read]
  | cons c r ih =>
    obtain ⟨k, v⟩ := c
    unfold Memory.write
    split
    · simp [Memory.read]
    · split
      · simp [Memory.read, *]
      · rename_i h1 h2
        simp only [Memory.read]
        rw [if_neg (by omega), ih]

theorem Memory.read_write_other (m : Memory) {a x : Word} (b : Byte) (h : x ≠ a) :
    (m.write a b).read x = m.read x := by
  have hn : ¬ a.toNat = x.toNat := fun hc => h (BitVec.eq_of_toNat_eq hc.symm)
  induction m with
  | nil => simp [Memory.write, Memory.read, hn]
  | cons c r ih =>
    obtain ⟨k, v⟩ := c
    unfold Memory.write
    split
    · rw [Memory.read, if_neg hn]
    · split
      · rename_i h1 h2
        subst h2
        simp [Memory.read, hn]
      · simp only [Memory.read, ih]

theorem Memory.read_writeBytes_other (m : Memory) (a x : Word) (bs : List Byte)
    (h : ∀ k, k < bs.length → x ≠ a + BitVec.ofNat 32 k) : (m.writeBytes a bs).read x = m.read x := by
  induction bs generalizing m a with
  | nil => rfl
  | cons b bs ih =>
    rw [Memory.writeBytes, ih]
    · refine Memory.read_write_other m b ?_
      simpa using h 0 (by simp)
    · intro k hk
      have := h (k + 1) (by simpa using hk)
      intro hc
      apply this
      rw [hc]
      simp only [BitVec.add_assoc]
      congr 1
      apply BitVec.eq_of_toNat_eq
      simp [Nat.add_comm]

/-- Reading `n` bytes where none of them was written. -/
theorem Memory.readBytes_writeBytes_other (m : Memory) (a x : Word) (bs : List Byte) (n : Nat)
    (h : ∀ j k, j < n → k < bs.length → x + BitVec.ofNat 32 j ≠ a + BitVec.ofNat 32 k) :
    (m.writeBytes a bs).readBytes x n = m.readBytes x n := by
  induction n generalizing x with
  | zero => rfl
  | succ n ih =>
    have h0 : (m.writeBytes a bs).read x = m.read x :=
      Memory.read_writeBytes_other m a x bs fun k hk => by simpa using h 0 k (by omega) hk
    simp only [Memory.readBytes, h0]
    rw [ih]
    intro j k hj hk
    have := h (j + 1) k (by omega) hk
    intro hc
    apply this
    rw [← hc]
    simp only [BitVec.add_assoc]
    congr 1
    apply BitVec.eq_of_toNat_eq
    simp [Nat.add_comm]

/-- Reading back the bytes just written (a word or less). -/
theorem Memory.readBytes_writeBytes_same (m : Memory) (a : Word) (bs : List Byte) (hl : bs.length ≤ 4) :
    (m.writeBytes a bs).readBytes a bs.length = .ok bs := by
  induction bs generalizing m a with
  | nil => rfl
  | cons b bs ih =>
    simp only [List.length_cons, Memory.readBytes, Memory.writeBytes]
    rw [Memory.read_writeBytes_other, Memory.read_write_same]
    · simp only
      rw [ih _ _ (by simp only [List.length_cons] at hl; omega)]
      rfl
    · intro k hk hc
      have := congrArg BitVec.toNat hc
      have := a.isLt
      simp at this hl
      simp at *
      omega

@[simp] theorem bytesOfWord_length (o : Endian) (w : Word) : (bytesOfWord o w).length = 4 := by
  cases o <;> rfl

/-- The bytes of a halfword hold it, in either byte order. -/
theorem bytesOfHalf_cases (o : Endian) (h : Half) :
    ∃ b0 b1, bytesOfHalf o h = [b0, b1] ∧ halfOfBytes o b0 b1 = h := by
  cases o <;> refine ⟨_, _, rfl, ?_⟩ <;> simp only [halfOfBytes] <;> ext i hi <;>
    simp <;> grind

/-- The bytes of a word hold it, in either byte order (R46). -/
theorem bytesOfWord_cases (o : Endian) (w : Word) :
    ∃ b0 b1 b2 b3, bytesOfWord o w = [b0, b1, b2, b3] ∧ wordOfBytes o b0 b1 b2 b3 = w := by
  cases o <;> refine ⟨_, _, _, _, rfl, ?_⟩ <;> simp only [wordOfBytes] <;> ext i hi <;>
    simp <;> grind

end Sys2Proof.Machine
end

