-- ==== Sys2Proof/Laws/Ops.lean ====
section
/-! SUPPORT. What each shared operation can do, said once: if it answers `next t`, then one of these cases holds. -/

namespace Sys2Proof.Machine

/-! ### Routing and entry -/

theorem freeRoute_monitor {e : Exc} {s : State} {mo ho : Bool} (h : freeRoute e s mo ho = .monitor) :
    mo = true := by
  unfold freeRoute at h
  split at h
  · cases h
  · split at h <;> (try split at h) <;> simp_all

theorem freeRoute_hyp {e : Exc} {s : State} {mo ho : Bool} (h : freeRoute e s mo ho = .hyp) : ho = true := by
  unfold freeRoute at h
  split at h
  · cases h
  · split at h <;> (try split at h) <;> simp_all

/-- Where no other route is possible, the free route is PL1. -/
@[simp] theorem freeRoute_none (e : Exc) (s : State) : freeRoute e s false false = .pl1 := rfl

theorem route_monitor {e : Exc} {s : State} (h : route e s = .ok .monitor) : s.impl.secExt = true := by
  cases e <;> simp only [route] at h
  case undefinedInstruction => exact absurd (freeRoute_monitor (Except.ok.inj h)) (by simp)
  case supervisorCall => (repeat' split at h) <;> simp at h
  case prefetchAbort => exact freeRoute_monitor (Except.ok.inj h)
  case dataAbort => exact freeRoute_monitor (Except.ok.inj h)
  case irq =>
    split at h
    · simp_all
    · exact absurd (freeRoute_monitor (Except.ok.inj h)) (by simp)
  case fiq =>
    split at h
    · simp_all
    · exact absurd (freeRoute_monitor (Except.ok.inj h)) (by simp)
  all_goals (repeat' split at h) <;> simp_all

theorem route_hyp {e : Exc} {s : State} (h : route e s = .ok .hyp) :
    s.hypPossible = true ∨ s.cpsr.mode = .hyp := by
  cases e <;> simp only [route] at h
  case undefinedInstruction => exact .inl (freeRoute_hyp (Except.ok.inj h))
  case supervisorCall => (repeat' split at h) <;> simp_all
  case prefetchAbort => exact .inl (freeRoute_hyp (Except.ok.inj h))
  case dataAbort => exact .inl (freeRoute_hyp (Except.ok.inj h))
  case irq =>
    split at h
    · simp at h
    · exact .inl (freeRoute_hyp (Except.ok.inj h))
  case fiq =>
    split at h
    · simp at h
    · exact .inl (freeRoute_hyp (Except.ok.inj h))
  all_goals (repeat' split at h) <;> simp_all

/-- The PL1 modes of Table B1-4 are neither Monitor nor Hyp (R94). -/
theorem pl1Mode_ne {e : Exc} {m : ExcMode} (h : pl1Mode e = some m) : m ≠ .monitor ∧ m ≠ .hyp := by
  cases e <;> cases h <;> exact ⟨by decide, by decide⟩

/-- Entry to Monitor mode needs the Security Extensions. -/
theorem targetMode_monitor {e : Exc} {s : State} (h : targetMode e s = .ok .monitor) :
    s.impl.secExt = true := by
  unfold targetMode at h
  split at h
  · cases h
  · exact route_monitor ‹_›
  · cases h
  · split at h
    · cases h; exact absurd rfl (pl1Mode_ne ‹_›).1
    · cases h

/-- Entry to Hyp mode is from a Non-secure state with the Virtualization Extensions, or from Hyp mode. -/
theorem targetMode_hyp {e : Exc} {s : State} (h : targetMode e s = .ok .hyp) :
    s.hypPossible = true ∨ s.cpsr.mode = .hyp := by
  unfold targetMode at h
  split at h
  · cases h
  · cases h
  · exact route_hyp ‹_›
  · split at h
    · cases h; exact absurd rfl (pl1Mode_ne ‹_›).2
    · cases h

/-- Taking an exception is entry to its target mode at its vector, or a refusal (R110). -/
theorem takeException_next {e : Exc} {ctx : Ctx} {s t : State} (h : takeException e ctx s = .next t) :
    ∃ tgt vec, targetMode e s = .ok tgt ∧ vectorAddress e tgt s = .ok vec ∧ t = enter e ctx tgt vec s := by
  unfold takeException at h
  split at h
  · cases h
  · split at h
    · cases h
    · cases h; exact ⟨_, _, ‹_›, ‹_›, rfl⟩

theorem takeException_of {e : Exc} {ctx : Ctx} {s : State} {tgt : ExcMode} {vec : Word}
    (ht : targetMode e s = .ok tgt) (hv : vectorAddress e tgt s = .ok vec) :
    takeException e ctx s = .next (enter e ctx tgt vec s) := by
  simp only [takeException, ht, hv]

/-- Taking an exception never faults. -/
theorem takeException_no_fault (e : Exc) (ctx : Ctx) (s : State) (r : Fault) :
    takeException e ctx s ≠ .fault r := by
  unfold takeException
  split
  · simp
  · split <;> simp

/-- A vector comes from a table that is ready, at one of its offsets (R43, R53). -/
theorem tableVector_ok {s : State} {r : Regime} {e : Exc} {base vec : Word} {off : Option Word}
    (h : tableVector s r e base off = .ok vec) :
    tableReady s r base = true ∧ ∃ o, off = some o ∧ vec = base + o := by
  unfold tableVector at h
  split at h
  · cases h
  · split at h
    · cases h
    · split at h
      · cases h
      · cases h; exact ⟨by simp_all [tableReady], _, rfl, rfl⟩

theorem tableVector_ready {s : State} {r : Regime} {e : Exc} {base o : Word} (h : tableReady s r base = true) :
    tableVector s r e base (some o) = .ok (base + o) := by
  simp only [tableReady, Bool.and_eq_true, Bool.not_eq_true'] at h
  simp [tableVector, h]

/-- Entry from a mode other than Monitor leaves `SCR.NS` (R114). -/
theorem nsAfterEntry_of_ne {s : State} (h : s.cpsr.mode ≠ .monitor) : nsAfterEntry s = s.scr.ns := by
  simp [nsAfterEntry, h]

/-- Outside Monitor mode, entry to a PL1 mode uses the copies of the current security state (R92). -/
theorem entrySecure_of_ne {s : State} (h : s.cpsr.mode ≠ .monitor) : entrySecure s = s.isSecure := by
  have hm : (s.cpsr.mode == Mode.monitor) = false := by simpa using h
  simp [entrySecure, State.isSecure, nsAfterEntry_of_ne h, hm]

/-- A Non-secure state has the Security Extensions, is not in Monitor mode and has `SCR.NS` set (R15). -/
theorem isSecure_false {s : State} (h : s.isSecure = false) :
    s.impl.secExt = true ∧ s.cpsr.mode ≠ .monitor ∧ s.scr.ns = true := by
  simpa [State.isSecure, and_assoc] using h

/-! ### Return and reset -/

theorem exceptionReturn_next {addr : Word} {psr : PSR} {s t : State} (h : exceptionReturn addr psr s = .next t) :
    returnCheck addr psr s = none ∧ t = { s with pc := addr, cpsr := psr } := by
  unfold exceptionReturn at h
  split at h
  · cases h
  · cases h; exact ⟨‹_›, rfl⟩

/-- What an accepted return has passed (R125, R128). -/
theorem returnCheck_none {addr : Word} {psr : PSR} {s : State} (h : returnCheck addr psr s = none) :
    Impl.hasMode s.impl psr.mode = true ∧ Mode.inSecurity s.isSecure psr.mode = true
      ∧ psr.mode.pl.rank ≤ s.cpsr.mode.pl.rank ∧ pcAligned psr.iset addr = true := by
  unfold returnCheck at h
  split at h
  · cases h
  · split at h
    · cases h
    · split at h
      · cases h
      · split at h
        · cases h
        · simp_all

theorem takeReset_next {d : ResetDraw} {s t : State} (h : takeReset d s = .next t) :
    tableReady (resetRegisters d s) .securePL1 (excVectorBase (resetRegisters d s) true) = true
      ∧ t = { resetRegisters d s with pc := excVectorBase (resetRegisters d s) true } := by
  unfold takeReset at h
  split at h
  · cases h
  · rename_i vec hv
    cases h
    obtain ⟨ha, o, ho, rfl⟩ := tableVector_ok hv
    cases ho
    exact ⟨ha, by simp⟩

/-! ### SRS and CPS -/

/-- The stores and the write-back of SRS touch one address space, the record of stores and the stack pointers, and
nothing else. -/
theorem storeReturnState_frame (m : ExcMode) (stack : Mode) (a : Word) (back : Option Word) (s : State) :
    ∃ b u, storeReturnState m stack a back s
      = { (s.store s.regime a (bytesOfWord s.dataOrder (s.link.get m))).store s.regime (a + 4#32)
            (bytesOfWord s.dataOrder (psrWord (s.spsr.get m))) with sp := b, spUsr := u } := by
  unfold storeReturnState
  cases back with
  | none => exact ⟨_, _, rfl⟩
  | some w => exact setSp_frame _ stack w

@[simp] theorem storeReturnState_mem (m : ExcMode) (stack : Mode) (a : Word) (back : Option Word) (s : State) :
    (storeReturnState m stack a back s).mem s.regime
      = ((s.mem s.regime).writeWord s.dataOrder a (s.link.get m)).writeWord s.dataOrder (a + 4#32)
          (psrWord (s.spsr.get m)) := by
  cases back <;> simp [storeReturnState, Memory.writeWord]

@[simp] theorem storeReturnState_mem_other (m : ExcMode) (stack : Mode) (a : Word) (back : Option Word) (s : State)
    {r : Regime} (h : r ≠ s.regime) : (storeReturnState m stack a back s).mem r = s.mem r := by
  cases back <;> simp [storeReturnState, h]

@[simp] theorem storeReturnState_stored (m : ExcMode) (stack : Mode) (a : Word) (back : Option Word) (s : State) :
    (storeReturnState m stack a back s).stored
      = markStored (markStored s.stored s.regime a 4) s.regime (a + 4#32) 4 := by
  cases back <;> cases h : s.dataOrder <;> simp [storeReturnState, h]

/-- What SRS can do: the Undefined Instruction exception in Hyp mode, a Data Abort where the address is misaligned,
or the two stores (R70). -/
theorem storeReturn_next {n : Nat} {p u w : Bool} {mode : BitVec 5} {s t : State}
    (h : storeReturn n p u w mode s = .next t) :
    (s.cpsr.mode.excMode = some .hyp ∧ takeUndefined s = .next t) ∨
    ∃ m stack, s.cpsr.mode.excMode = some m ∧ m ≠ .hyp ∧ srsStackMode s mode = some stack ∧
      ((srsAddress p u (s.spOf stack)).extractLsb' 0 2 ≠ 0#2 ∧
          takeException .dataAbort (ctxAtPc s) s = .next t ∨
        hitsVectorTable s s.regime (srsAddress p u (s.spOf stack)) 8 = false ∧
          t = advance n (storeReturnState m stack (srsAddress p u (s.spOf stack))
            (if w then some (srsWriteBack u (s.spOf stack)) else none) s)) := by
  unfold storeReturn at h
  split at h
  · cases h
  · exact .inl ⟨‹_›, h⟩
  · rename_i m hne hm
    split at h
    · cases h
    · rename_i stack hstack
      refine .inr ⟨m, stack, hm, fun hc => hne hc, hstack, ?_⟩
      simp only [srsStore] at h
      split at h
      · exact .inl ⟨(‹_ ∧ _›).1, h⟩
      · split at h
        · cases h
        · cases h; exact .inr ⟨by simp_all, rfl⟩

/-- What CPS can do: nothing but the advance in User mode; else new mask bits and, with `M`, a new mode that is not
User, Monitor or Hyp (R71). -/
theorem changeState_next {n : Nat} {imod : BitVec 2} {m : Bool} {sel : Masks} {mode : BitVec 5} {s t : State}
    (h : changeState n imod m sel mode s = .next t) :
    (s.cpsr.mode = .user ∧ t = advance n s) ∨
    (s.cpsr.mode ≠ .user ∧ m = false ∧
      t = advance n { s with cpsr := { s.cpsr with masks := cpsMasks imod sel s.cpsr.masks } }) ∨
    (s.cpsr.mode ≠ .user ∧ m = true ∧ ∃ k, cpsTarget mode = some k ∧
      t = advance n { s with cpsr := { s.cpsr with masks := cpsMasks imod sel s.cpsr.masks, mode := k } }) := by
  unfold changeState at h
  split at h
  · cases h; exact .inl ⟨‹_›, rfl⟩
  · dsimp only at h
    split at h
    · split at h
      · cases h
      · cases h; exact .inr (.inr ⟨‹_›, ‹_›, _, ‹_›, rfl⟩)
    · cases h; exact .inr (.inl ⟨‹_›, by simpa using ‹¬ m = true›, rfl⟩)

/-- The target of CPS is not User, Monitor or Hyp (D20). -/
theorem cpsTarget_ne {mode : BitVec 5} {k : Mode} (h : cpsTarget mode = some k) :
    k ≠ .user ∧ k ≠ .monitor ∧ k ≠ .hyp := by
  unfold cpsTarget at h
  split at h <;> simp_all

/-- The security state whose registers entry to a PL1 mode uses is the one the exception is taken from: entry from
Monitor mode, which clears `SCR.NS`, was Secure already (R15, R92, R114). -/
theorem entrySecure_eq (s : State) : entrySecure s = s.isSecure := by
  simp only [entrySecure, State.isSecure, nsAfterEntry]
  cases s.impl.secExt <;> cases s.cpsr.mode == Mode.monitor <;> simp

/-- A mode number names the mode whose number it is. -/
theorem Mode.bits_of_ofBits {b : BitVec 5} {k : Mode} (h : Mode.ofBits b = some k) : k.bits = b := by
  unfold Mode.ofBits at h
  repeat' split at h
  all_goals (cases h; try simp_all [Mode.bits])

end Sys2Proof.Machine
end

