-- ==== Sys2Proof/Laws/Step.lean ====
section
/-! SUPPORT. What the calls, the abstract Execute, the fetch and one step can do, said once. -/

namespace Sys2Proof.Machine

theorem supervisorCall_next {n : Nat} {s t : State} (h : supervisorCall n s = .next t) :
    takeException .supervisorCall (ctxAfter n s) s = .next t := h

theorem secureMonitorCall_next {n : Nat} {s t : State} (h : secureMonitorCall n s = .next t) :
    s.cpsr.mode ≠ .user ∧ takeException .secureMonitorCall (ctxAfter n s) s = .next t := by
  unfold secureMonitorCall at h
  split at h
  · cases h
  · exact ⟨‹_›, h⟩

theorem hypervisorCall_next {n : Nat} {s t : State} (h : hypervisorCall n s = .next t) :
    s.isSecure = false ∧ s.cpsr.mode ≠ .user ∧ takeException .hypervisorCall (ctxAfter n s) s = .next t := by
  unfold hypervisorCall at h
  split at h
  · cases h
  · split at h
    · cases h
    · exact ⟨by simp_all, by simp_all, h⟩

/-- The four things an instruction can do to the state: take an exception, go on in line, SRS's stores, or CPS's
change of the CPSR. -/
def ExecCases (s t : State) : Prop :=
  (∃ e ctx, takeException e ctx s = .next t) ∨
  (∃ n, t = advance n s) ∨
  (∃ n m stack a back, s.cpsr.mode.excMode = some m ∧ hitsVectorTable s s.regime a 8 = false ∧
    t = advance n (storeReturnState m stack a back s)) ∨
  (∃ n masks k, s.cpsr.mode ≠ .user ∧ (k = s.cpsr.mode ∨ k ≠ .user ∧ k ≠ .monitor ∧ k ≠ .hyp) ∧
    t = advance n { s with cpsr := { s.cpsr with masks := masks, mode := k } })

theorem changeState_execCases {n : Nat} {imod : BitVec 2} {m : Bool} {sel : Masks} {mode : BitVec 5} {s t : State}
    (h : changeState n imod m sel mode s = .next t) : ExecCases s t := by
  rcases changeState_next h with ⟨_, rfl⟩ | ⟨hu, _, rfl⟩ | ⟨hu, _, k, hk, rfl⟩
  · exact .inr (.inl ⟨_, rfl⟩)
  · exact .inr (.inr (.inr ⟨_, _, s.cpsr.mode, hu, .inl rfl, rfl⟩))
  · exact .inr (.inr (.inr ⟨_, _, k, hu, .inr (cpsTarget_ne hk), rfl⟩))

theorem storeReturn_execCases {n : Nat} {p u w : Bool} {mode : BitVec 5} {s t : State}
    (h : storeReturn n p u w mode s = .next t) : ExecCases s t := by
  rcases storeReturn_next h with ⟨_, hx⟩ | ⟨m, stack, hm, _, _, ⟨_, hx⟩ | ⟨hv, rfl⟩⟩
  · exact .inl ⟨_, _, hx⟩
  · exact .inl ⟨_, _, hx⟩
  · exact .inr (.inr (.inl ⟨_, m, stack, _, _, hm, hv, rfl⟩))

/-- What one of the twelve instructions can do. -/
theorem exec_next {i : Instr} {s t : State} (h : exec i s = .next t) : ExecCases s t := by
  have smc : ∀ {n}, secureMonitorCall n s = .next t → ∃ e ctx, takeException e ctx s = .next t := fun hc =>
    ⟨_, _, (secureMonitorCall_next hc).2⟩
  have hvc : ∀ {n}, hypervisorCall n s = .next t → ∃ e ctx, takeException e ctx s = .next t := fun hc =>
    ⟨_, _, (hypervisorCall_next hc).2.2⟩
  cases i with
  | svcA1 cond imm =>
    simp only [exec, execSvcA1] at h
    split at h
    · exact .inl ⟨_, _, h⟩
    · cases h; exact .inr (.inl ⟨_, rfl⟩)
  | svcT1 imm => exact .inl ⟨_, _, h⟩
  | smcA1 cond imm =>
    simp only [exec, execSmcA1] at h
    split at h
    · cases h
    · split at h
      · exact .inl (smc h)
      · cases h; exact .inr (.inl ⟨_, rfl⟩)
  | smcT1 imm =>
    simp only [exec, execSmcT1] at h
    split at h
    · cases h
    · exact .inl (smc h)
  | hvcA1 imm => exact .inl (hvc h)
  | hvcT1 imm => exact .inl (hvc h)
  | srsA1 p u w mode => exact storeReturn_execCases h
  | srsT1 w mode => exact storeReturn_execCases h
  | srsT2 w mode => exact storeReturn_execCases h
  | cpsA1 imod m a i f mode => exact changeState_execCases h
  | cpsT1 im a i f =>
    simp only [exec, execCpsT1] at h
    exact changeState_execCases h
  | cpsT2 imod m a i f mode => exact changeState_execCases h

/-- No instruction faults: only a fetch does. -/
theorem runInstr_of_fetch {s : State} {i : Instr} (h : fetch s = .instr i) : runInstr s = exec i s := by
  simp only [runInstr, h]

/-- With nothing takeable the machine runs the instruction at the pc. -/
theorem runBoundary_quiet {s : State} (h : anyTakeable s = false) : runBoundary s = runInstr s := by
  simp [runBoundary, chosenAsync, afterChoice, h]

@[simp] theorem anyTakeable_pending_none (s : State) (h : s.pending = .none) : anyTakeable s = false := by
  simp [anyTakeable, takeable, Pending.has, h, Pending.none]

/-- What a boundary can do: take the chosen asynchronous exception, or run the instruction at the pc. -/
theorem runBoundary_next {s t : State} (h : runBoundary s = .next t) :
    (∃ x, chosenAsync s = some x ∧ takeException x.toExc (ctxAtPc s) (afterChoice s) = .next t) ∨
    (chosenAsync s = none ∧ ∃ i, fetch (afterChoice s) = .instr i ∧ exec i (afterChoice s) = .next t) := by
  unfold runBoundary at h
  split at h
  · exact .inl ⟨_, ‹_›, h⟩
  · refine .inr ⟨‹_›, ?_⟩
    unfold runInstr at h
    split at h
    · exact ⟨_, ‹_›, h⟩
    · cases h
    · cases h

/-- An exception is chosen only if it may be taken (R107). -/
theorem chosenAsync_takeable {s : State} {x : AsyncExc} (h : chosenAsync s = some x) : takeable s x = true := by
  unfold chosenAsync at h
  split at h
  · split at h
    · split at h
      · cases h; assumption
      · cases h
    · cases h
  · cases h

/-- What a write of the abstract Execute keeps, whatever it writes: the implementation, the mode, Pending and the
model's own inputs and draws; `SCR.NS` unless it is the register written, and set in Hyp mode; every address space
canonical; the record of stores, which holds every byte that changes. -/
structure ExecuteKeeps (clearsNS : Prop) (s t : State) : Prop where
  impl : t.impl = s.impl
  mode : t.cpsr.mode = s.cpsr.mode
  ns : ¬ clearsNS → s.scr.ns = true → t.scr.ns = true
  nsHyp : s.cpsr.mode = .hyp → s.scr.ns = true → t.scr.ns = true
  pending : t.pending = s.pending
  inputs : t.inputs = s.inputs
  draws : t.draws = s.draws
  wf : (∀ r, (s.mem r).wf = true) → ∀ r, (t.mem r).wf = true
  stored : ∀ p ∈ s.stored, p ∈ t.stored
  changed : ∀ r x, (t.mem r).read x = (s.mem r).read x ∨ (r, x) ∈ t.stored

theorem ExecuteKeeps.refl (c : Prop) (s : State) : ExecuteKeeps c s s :=
  ⟨rfl, rfl, fun _ h => h, fun _ h => h, rfl, rfl, rfl, fun h => h, fun _ h => h, fun _ _ => .inl rfl⟩

theorem ExecuteKeeps.trans {c d : Prop} {s t u : State} (h : ExecuteKeeps c s t) (k : ExecuteKeeps d t u) :
    ExecuteKeeps (c ∨ d) s u where
  impl := k.impl.trans h.impl
  mode := k.mode.trans h.mode
  ns hn hs := k.ns (fun hd => hn (.inr hd)) (h.ns (fun hc => hn (.inl hc)) hs)
  nsHyp hm hs := k.nsHyp (h.mode ▸ hm) (h.nsHyp hm hs)
  pending := k.pending.trans h.pending
  inputs := k.inputs.trans h.inputs
  draws := k.draws.trans h.draws
  wf hs := k.wf (h.wf hs)
  stored p hp := k.stored p (h.stored p hp)
  changed r x := by
    rcases k.changed r x with hk | hk
    · rcases h.changed r x with hh | hh
      · exact .inl (hk.trans hh)
      · exact .inr (k.stored _ hh)
    · exact .inr hk

/-- A state that differs in registers other than the mode and `SCR.NS` is one Execute keeps. -/
theorem ExecuteKeeps.of_registers {c : Prop} {s t : State} (impl : t.impl = s.impl)
    (mode : t.cpsr.mode = s.cpsr.mode) (scr : t.scr.ns = s.scr.ns) (pending : t.pending = s.pending)
    (inputs : t.inputs = s.inputs) (draws : t.draws = s.draws) (mem : ∀ r, t.mem r = s.mem r)
    (stored : t.stored = s.stored) : ExecuteKeeps c s t :=
  ⟨impl, mode, fun _ h => scr ▸ h, fun _ h => scr ▸ h, pending, inputs, draws, fun h r => mem r ▸ h r,
    fun _ h => stored ▸ h, fun r x => .inl (by rw [mem r])⟩

/-- What one write of the abstract Execute can do. -/
theorem applyWrite_ok {w : RegWrite} {s t : State} (h : applyWrite w s = .ok t) :
    ExecuteKeeps (w = .scrNS false) s t := by
  cases w with
  | store r a b =>
    simp only [applyWrite] at h
    split at h
    · cases h
    · split at h
      · cases h
      · cases h
        refine ⟨by simp, by simp, fun _ hs => by simpa using hs, fun _ hs => by simpa using hs, by simp, by simp,
          by simp, fun hs => store_wf r a [b] hs, fun p hp => ?_, fun k x => ?_⟩
        · rw [store_stored]; exact mem_markStored.2 (.inl hp)
        · by_cases hk : k = r
          · by_cases hx : x = a
            · exact .inr (by
                rw [store_stored]
                exact mem_markStored.2 (.inr ⟨0, by simp, by simp [hk, hx]⟩))
            · subst hk
              exact .inl (by
                rw [store_mem_same]
                exact Memory.read_writeBytes_other _ _ _ _ fun j hj => by
                  have : j = 0 := by simpa using hj
                  simpa [this] using hx)
          · exact .inl (by rw [store_mem_other s a [b] hk])
  | sp k x =>
    simp only [applyWrite] at h
    split at h
    · cases h
      obtain ⟨b, u, hu⟩ := setSp_frame s k x
      rw [hu]
      exact .of_registers rfl rfl rfl rfl rfl rfl (fun r => by cases r <;> rfl) rfl
    · cases h
  | scrNS b =>
    simp only [applyWrite] at h
    split at h
    · cases h
    · split at h
      · cases h
      · rename_i hb
        cases h
        refine ⟨rfl, rfl, fun hn _ => ?_, fun hm _ => ?_, rfl, rfl, rfl, fun hs r => ?_, fun _ hp => hp,
          fun r _ => .inl (by cases r <;> rfl)⟩
        · cases b
          · exact absurd rfl hn
          · rfl
        · simpa [hm] using hb
        · have := hs r; cases r <;> exact this
  | sctlrV ns b =>
    simp only [applyWrite, writeSctlr] at h
    (repeat' split at h) <;> first
      | (cases h; done)
      | (cases h; exact .of_registers rfl rfl rfl rfl rfl rfl (fun r => by cases r <;> rfl) rfl)
  | sctlrVE ns b =>
    simp only [applyWrite, writeSctlr] at h
    (repeat' split at h) <;> first
      | (cases h; done)
      | (cases h; exact .of_registers rfl rfl rfl rfl rfl rfl (fun r => by cases r <;> rfl) rfl)
  | _ =>
    simp only [applyWrite] at h
    (repeat' split at h) <;> first
      | (cases h; done)
      | (cases h; exact .of_registers rfl rfl rfl rfl rfl rfl (fun r => by cases r <;> rfl) rfl)

/-- What the writes of one instruction can do. -/
theorem applyWrites_ok {ws : List RegWrite} {s t : State} (h : applyWrites ws s = .ok t) :
    ExecuteKeeps (.scrNS false ∈ ws) s t := by
  induction ws generalizing s with
  | nil => cases h; exact .refl _ _
  | cons w ws ih =>
    simp only [applyWrites] at h
    split at h
    · cases h
    · rename_i u hu
      have := (applyWrite_ok hu).trans (ih h)
      simpa [eq_comm] using this

/-- What one step can do: with no input, what a boundary does; else what the first input does. -/
theorem step_cases (s : State) :
    (s.inputs = [] ∧ step s = runBoundary s) ∨
    ∃ i rest, s.inputs = i :: rest ∧ step s = applyInput i { s with inputs := rest } := by
  unfold step
  split
  · exact .inl ⟨‹_›, rfl⟩
  · exact .inr ⟨_, _, ‹_›, rfl⟩

end Sys2Proof.Machine
end

