-- ==== Sys2Proof/Laws/Entry.lean ====
section
/-! SUPPORT. The terms of Safety.lean against the definitions of the machine: which table an entry uses, and the forms
of SVC and SRS. -/

namespace Sys2Proof.Machine

/-- An exception routed to Monitor mode has an entry in the Monitor vector table (R95, R98). -/
theorem offMon_of_route {e : Exc} {s : State} (h : route e s = .ok .monitor) : ∃ o, offMon e = some o := by
  cases e <;> simp only [offMon] <;> simp only [route] at h
  case undefinedInstruction => exact absurd (freeRoute_monitor (Except.ok.inj h)) (by simp)
  all_goals first
    | exact ⟨_, rfl⟩
    | ((repeat' split at h) <;> simp at h)

/-- An exception routed to Hyp mode has an entry in the Hyp vector table (R95, R97). -/
theorem offHyp_of_route {e : Exc} {s : State} (h : route e s = .ok .hyp) :
    ∃ o, offHyp s.impl e (s.cpsr.mode == .hyp) = some o := by
  cases e <;> simp only [offHyp] <;> simp only [route] at h
  case supervisorCall =>
    split at h
    · split at h
      · simp_all [Option.isSome_iff_exists]
      · cases h
    · simp_all
  all_goals first
    | exact ⟨_, rfl⟩
    | ((repeat' split at h) <;> simp at h)

/-- An exception with a mode of Table B1-4 has an entry in the PL1 tables (R94, R102). -/
theorem offPL1_of_pl1Mode {e : Exc} {m : ExcMode} (h : pl1Mode e = some m) : ∃ o, offPL1 e = some o := by
  cases e <;> first | exact ⟨_, rfl⟩ | cases h

/-- An exception that uses a table has its vector at an offset of that table (R120). -/
theorem vectorAddress_of_usesTable {e : Exc} {tgt : ExcMode} {s : State} (ht : targetMode e s = .ok tgt)
    (hu : UsesTable e tgt s) :
    ∃ o, vectorAddress e tgt s = tableVector s (tableUsed tgt s).1 e (tableUsed tgt s).2 (some o) := by
  unfold targetMode at ht
  split at ht
  · cases ht
  · cases ht
    obtain ⟨o, ho⟩ := offMon_of_route ‹_›
    exact ⟨o, by simp only [vectorAddress, ho]; rfl⟩
  · cases ht
    obtain ⟨o, ho⟩ := offHyp_of_route ‹_›
    exact ⟨o, by simp only [vectorAddress, ho]; rfl⟩
  · split at ht
    · cases ht
      rename_i hm
      obtain ⟨o, ho⟩ := offPL1_of_pl1Mode hm
      obtain ⟨hmon, hhyp⟩ := pl1Mode_ne hm
      have hv : isVectored e tgt s = false := by
        have := hu.1
        simp only [isVectored, entrySecure_eq]
        by_contra hc
        simp at hc
        exact this (by tauto) hmon hhyp (by tauto)
      have hv' : virtualVectored e s = false := by
        have := hu.2
        simp only [virtualVectored]
        by_contra hc
        simp at hc
        exact this (by tauto) (by tauto)
      refine ⟨o, ?_⟩
      cases tgt <;> first | contradiction | (simp only [vectorAddress, hv, hv', ho, entrySecure_eq]; rfl)
    · cases ht

/-- Every encoding of SRS is `storeReturn` with its length and its addressing mode. -/
theorem exec_of_isSrs {p u w : Bool} {mode : BitVec 5} {i : Instr} (h : IsSrs p u w mode i) (s : State) :
    exec i s = storeReturn (lengthOf s.impl.iLen i) p u w mode s := by
  rcases h with rfl | ⟨rfl, rfl, rfl⟩ | ⟨rfl, rfl, rfl⟩ <;> rfl

/-- A taken SVC is the Supervisor Call exception, after its length. -/
theorem exec_of_isTakenSvc {i : Instr} {s : State} (h : IsTakenSvc i s) :
    exec i s = takeException .supervisorCall (ctxAfter (lengthOf s.impl.iLen i) s) s := by
  rcases h with ⟨_, rfl⟩ | ⟨_, _, rfl, hc⟩
  · rfl
  · simp [exec, execSvcA1, hc, supervisorCall, lengthOf]

end Sys2Proof.Machine
end

