-- ==== Sys2Proof/Laws/Execute.lean ====
section
/-! SUPPORT. What a permitted register write of the abstract Execute does, said once. -/

namespace Sys2Proof.Machine

/-- The state `t` is `s` after the register write `w`: the register holds the value where the spec states one, every
other register and all memory is as before, and the rest of the state stays. -/
structure RegisterWritten (w : RegWrite) (s t : State) : Prop where
  pc : t.pc = s.pc
  inputs : t.inputs = s.inputs
  impl : t.impl = s.impl
  mode : t.cpsr.mode = s.cpsr.mode
  pending : t.pending = s.pending
  draws : t.draws = s.draws
  mem : ∀ r, t.mem r = s.mem r
  stored : t.stored = s.stored
  written : HasStatedValue s.impl w → Holds w t
  others : ∀ v, placeOf v ≠ placeOf w → Holds v s → Holds v t

/-- A permitted register write is made (R5, D1). -/
theorem applyWrite_of_mayWrite {w : RegWrite} {s : State} (h : MayWrite s w) :
    ∃ t, applyWrite w s = .ok t ∧ RegisterWritten w s t := by
  cases w with
  | store => exact h.elim
  | spsr m p =>
    simp only [MayWrite] at h
    simp only [applyWrite, h, reduceIte]
    refine ⟨_, rfl,
      ⟨rfl, rfl, rfl, rfl, rfl, rfl, fun r => by cases r <;> rfl, rfl, fun _ => by simp [Holds], fun v hv hh => ?_⟩⟩
    cases v <;> simp only [placeOf, Holds] at hv hh ⊢ <;> try exact hh
    rename_i k q
    have : k ≠ m := fun hc => hv (by rw [hc])
    simpa [this] using hh
  | link m p =>
    simp only [MayWrite] at h
    simp only [applyWrite, h, reduceIte]
    refine ⟨_, rfl,
      ⟨rfl, rfl, rfl, rfl, rfl, rfl, fun r => by cases r <;> rfl, rfl, fun _ => by simp [Holds], fun v hv hh => ?_⟩⟩
    cases v <;> simp only [placeOf, Holds] at hv hh ⊢ <;> try exact hh
    rename_i k q
    have : k ≠ m := fun hc => hv (by rw [hc])
    simpa [this] using hh
  | sp k x =>
    simp only [MayWrite] at h
    obtain ⟨b, u, hu⟩ := setSp_frame s k x
    simp only [applyWrite, h, reduceIte]
    refine ⟨_, rfl,
      ⟨by simp, by rw [hu], by simp, by simp, by rw [hu], by rw [hu], by simp, by simp, fun _ => by simp [Holds],
        fun v hv hh => ?_⟩⟩
    cases v with
    | sp j y =>
      simp only [placeOf, Holds] at hv hh ⊢
      cases k <;> cases j <;> simp_all [State.spOf, State.setSp, Mode.excMode, Bank.get, Bank.set]
    | store r a b => simpa [Holds] using hh
    | sctlrV ns b => rw [hu]; cases ns <;> exact hh
    | sctlrVE ns b => rw [hu]; cases ns <;> exact hh
    | vbar ns b => rw [hu]; cases ns <;> exact hh
    | _ => rw [hu]; exact hh
  | sctlrV ns b =>
    cases ns <;> simp only [MayWrite] at h <;>
      (simp only [applyWrite, writeSctlr, h, Bool.false_eq_true, reduceIte]
       refine ⟨_, rfl,
        ⟨rfl, rfl, rfl, rfl, rfl, rfl, fun r => by cases r <;> rfl, rfl, fun _ => by simp [Holds, State.sctlr],
          fun v hv hh => ?_⟩⟩
       cases v <;> simp only [placeOf, Holds] at hv hh ⊢ <;> try exact hh
       all_goals (rename_i ns' b'; cases ns' <;> simp_all [State.sctlr]))
  | sctlrVE ns b =>
    cases ns <;> simp only [MayWrite] at h <;>
      (simp only [applyWrite, writeSctlr, h, Bool.false_eq_true, reduceIte]
       refine ⟨_, rfl,
        ⟨rfl, rfl, rfl, rfl, rfl, rfl, fun r => by cases r <;> rfl, rfl,
          fun hd => by rcases hd with hd | rfl <;> simp [Holds, State.sctlr, *], fun v hv hh => ?_⟩⟩
       cases v <;> simp only [placeOf, Holds] at hv hh ⊢ <;> try exact hh
       all_goals (rename_i ns' b'; cases ns' <;> simp_all [State.sctlr]))
  | vbar ns x =>
    simp only [MayWrite] at h
    cases ns <;>
      (simp only [applyWrite, h, Bool.not_true, Bool.false_eq_true, reduceIte]
       refine ⟨_, rfl,
        ⟨rfl, rfl, rfl, rfl, rfl, rfl, fun r => by cases r <;> rfl, rfl, fun _ => by simp [Holds, State.vbar],
          fun v hv hh => ?_⟩⟩
       cases v <;> simp only [placeOf, Holds] at hv hh ⊢ <;> try exact hh
       rename_i ns' b'; cases ns' <;> simp_all [State.vbar])
  | scrNS b =>
    obtain ⟨h1, h2⟩ := h
    have hb : (s.cpsr.mode == .hyp && !b) = false := by cases b <;> simp_all
    simp only [applyWrite, h1, hb, Bool.not_true, Bool.false_eq_true, reduceIte]
    refine ⟨_, rfl,
      ⟨rfl, rfl, rfl, rfl, rfl, rfl, fun r => by cases r <;> rfl, rfl, fun _ => by simp [Holds], fun v hv hh => ?_⟩⟩
    cases v <;> simp only [placeOf, Holds] at hv hh ⊢ <;> first | exact hh | exact absurd rfl hv
  | _ =>
    simp only [MayWrite] at h
    simp only [applyWrite, h, Bool.not_true, Bool.false_eq_true, reduceIte]
    refine ⟨_, rfl,
      ⟨rfl, rfl, rfl, rfl, rfl, rfl, fun r => by cases r <;> rfl, rfl, fun _ => by simp [Holds], fun v hv hh => ?_⟩⟩
    cases v <;> simp only [placeOf, Holds] at hv hh ⊢ <;> first | exact hh | exact absurd rfl hv

end Sys2Proof.Machine
end

