-- ==== Sys2Proof/Laws/PerInstr.lean ====
section
/-! SUPPORT. Statements made once per instruction. CodeShape: the code of an instruction belongs to the instruction's
set, has the instruction's length, and tells its own length by its first halfword (spec/30_encoding.md R57). -/

namespace Sys2Proof.Laws

/-- The first halfword of a Thumb code says whether a second one follows (R57). -/
def CodeShape.lengthShown : Code → Bool
  | .arm _ => true
  | .t16 h => !isThumb32 h
  | .t32 h1 _ => isThumb32 h1

/-- The shape of the code of `i`. -/
def CodeShape.Statement (i : Instr) : Prop :=
  (encode i).iset = i.iset ∧ (∀ o, ((encode i).bytes o).length = i.len) ∧ CodeShape.lengthShown (encode i) = true

theorem CodeShape.svcA1 (cond : BitVec 4) (imm24 : BitVec 24) : CodeShape.Statement (.svcA1 cond imm24) :=
  ⟨rfl, fun o => by cases o <;> rfl, rfl⟩

theorem CodeShape.svcT1 (imm8 : BitVec 8) : CodeShape.Statement (.svcT1 imm8) :=
  ⟨rfl, fun o => by cases o <;> rfl, by revert imm8; decide⟩

theorem CodeShape.smcA1 (cond imm4 : BitVec 4) : CodeShape.Statement (.smcA1 cond imm4) :=
  ⟨rfl, fun o => by cases o <;> rfl, rfl⟩

theorem CodeShape.smcT1 (imm4 : BitVec 4) : CodeShape.Statement (.smcT1 imm4) :=
  ⟨rfl, fun o => by cases o <;> rfl, by revert imm4; decide⟩

theorem CodeShape.hvcA1 (imm16 : BitVec 16) : CodeShape.Statement (.hvcA1 imm16) :=
  ⟨rfl, fun o => by cases o <;> rfl, rfl⟩

theorem CodeShape.hvcT1 (imm16 : BitVec 16) : CodeShape.Statement (.hvcT1 imm16) := by
  refine ⟨rfl, fun o => by cases o <;> rfl, ?_⟩
  have h : ∀ x : BitVec 4, isThumb32 (0xF7E#12 ++ x) = true := by decide
  exact h _

theorem CodeShape.srsA1 (p u w : Bool) (mode : BitVec 5) : CodeShape.Statement (.srsA1 p u w mode) :=
  ⟨rfl, fun o => by cases o <;> rfl, rfl⟩

theorem CodeShape.srsT1 (w : Bool) (mode : BitVec 5) : CodeShape.Statement (.srsT1 w mode) :=
  ⟨rfl, fun o => by cases o <;> rfl, by cases w <;> rfl⟩

theorem CodeShape.srsT2 (w : Bool) (mode : BitVec 5) : CodeShape.Statement (.srsT2 w mode) :=
  ⟨rfl, fun o => by cases o <;> rfl, by cases w <;> rfl⟩

theorem CodeShape.cpsA1 (imod : BitVec 2) (m a i f : Bool) (mode : BitVec 5) :
    CodeShape.Statement (.cpsA1 imod m a i f mode) :=
  ⟨rfl, fun o => by cases o <;> rfl, rfl⟩

theorem CodeShape.cpsT1 (im a i f : Bool) : CodeShape.Statement (.cpsT1 im a i f) :=
  ⟨rfl, fun o => by cases o <;> rfl, by cases im <;> cases a <;> cases i <;> cases f <;> rfl⟩

theorem CodeShape.cpsT2 (imod : BitVec 2) (m a i f : Bool) (mode : BitVec 5) :
    CodeShape.Statement (.cpsT2 imod m a i f mode) :=
  ⟨rfl, fun o => by cases o <;> rfl, rfl⟩

end Sys2Proof.Laws
end

