-- ==== Sys2Proof/Tests/Slice0.lean ====
section
/-! SUPPORT. Tests: ill-formed terms, words of spec/95_test_vectors.md, one step of each instruction on a small state
(expected values from the spec's vectors TV<n>), and a witness for the hypotheses of every obligation that has any. -/

namespace Sys2Proof.Tests

open Sys2Proof.Machine

/-! ### Well-formedness: each ill-formed term is refused -/

theorem test_svc_cond_1111_refused : (Instr.svcA1 0xF#4 0#24).wellFormed = false := by decide
theorem test_smc_cond_1111_refused : (Instr.smcA1 0xF#4 0#4).wellFormed = false := by decide

/-! ### Decoding: words written out from the patterns of R57 (TV107 to TV132) -/

theorem test_decode_svcA1 : decodeArm 0x0F000001#32 = .ok (.svcA1 0#4 1#24) := by decide
theorem test_decode_svcT1 : decodeThumb16 0xDF01#16 = .ok (.svcT1 1#8) := by decide
theorem test_decode_smcA1 : decodeArm 0xE160007F#32 = .ok (.smcA1 14#4 15#4) := by decide
theorem test_decode_smcT1 : decodeThumb32 0xF7F5#16 0x8000#16 = .ok (.smcT1 5#4) := by decide
theorem test_decode_hvcA1 : decodeArm 0xE1412374#32 = .ok (.hvcA1 0x1234#16) := by decide
theorem test_decode_hvcT1 : decodeThumb32 0xF7E1#16 0x8234#16 = .ok (.hvcT1 0x1234#16) := by decide
theorem test_decode_srsA1 : decodeArm 0xF8CD0513#32 = .ok (.srsA1 false true false 19#5) := by decide
theorem test_decode_srsT1 : decodeThumb32 0xE80D#16 0xC012#16 = .ok (.srsT1 false 18#5) := by decide
theorem test_decode_srsT2 : decodeThumb32 0xE9AD#16 0xC013#16 = .ok (.srsT2 true 19#5) := by decide
theorem test_decode_cpsA1 : decodeArm 0xF10C0080#32 = .ok (.cpsA1 3#2 false false true false 0#5) := by decide
theorem test_decode_cpsT1 : decodeThumb16 0xB662#16 = .ok (.cpsT1 false false true false) := by decide
theorem test_decode_cpsT2 :
    decodeThumb32 0xF3AF#16 0x8113#16 = .ok (.cpsT2 0#2 true false false false 19#5) := by decide

/-- `MOVS PC, LR` (spec/95_test_vectors.md Part 3) is none of the five. -/
theorem test_decode_refuses_movs : decodeArm 0xE1B0F00E#32 = .error (.noArmRow 0xE1B0F00E#32) := by decide
/-- `cond == 1111` is another instruction space (R57): neither SVC nor SMC. -/
theorem test_decode_refuses_cond_1111 :
    decodeArm 0xFF000000#32 = .error (.noArmRow 0xFF000000#32)
      ∧ decodeArm 0xF1600070#32 = .error (.noArmRow 0xF1600070#32) := by decide

theorem test_table_word_arm : decodeTableWord 32 0xE1412374 = some (.hvcA1 0x1234#16) := by decide
theorem test_table_word_thumb16 : decodeTableWord 16 0xDFFF = some (.svcT1 255#8) := by decide
theorem test_table_word_thumb32 : decodeTableWord 32 0xF7E18234 = some (.hvcT1 0x1234#16) := by decide

/-! ### Small states -/

/-- The configurations of spec/95_test_vectors.md: A is `false false`, B `true false`, C `true true`; at the addresses
used there, in mode `k`. -/
def st (secExt virtExt ns : Bool) (k : Mode) : State :=
  { State.reset with
    impl := { Impl.full with secExt := secExt, virtExt := virtExt, vecIrq := false }
    pc := 0x00008000#32
    cpsr := { State.reset.cpsr with mode := k, masks := .none, z := true, c := true }
    vbarS := 0x10000000#32, vbarNS := 0x20000000#32, mvbar := 0x30000000#32, hvbar := 0x40000000#32
    scr := ⟨ns, false, false⟩ }

/-- The same in IRQ mode with the Supervisor stack pointer of TV133 and a return state to save. -/
def stIrq : State :=
  { st false false false .irq with
    sp := (Bank.const 0#32).set .supervisor 0x00010000#32
    link := (Bank.const 0#32).set .irq 0x12345678#32 }

/-- A field of the next state, where there is one. -/
def nextField {α : Type} (f : State → α) : Host.Outcome State Fault Refusal → Option α
  | .next t => some (f t)
  | .fault _ => none
  | .refused _ => none

/-- The refusal, where there is one. -/
def refusal : Host.Outcome State Fault Refusal → Option Refusal
  | .refused r => some r
  | .next _ => none
  | .fault _ => none

/-! ### One step of each instruction -/

/-- TV86, TV32. -/
theorem test_svcA1_enters_supervisor :
    nextField (fun t => (t.pc, t.cpsr.mode, t.cpsr.z, t.spsr.svc.mode))
        (exec (.svcA1 14#4 1#24) (st false false false .user))
      = some (0x00000008#32, .supervisor, true, .user) := by decide
/-- TV109, with Z clear and `cond` EQ. -/
theorem test_svcA1_condition_fails :
    nextField (fun t => (t.pc, t.cpsr.mode)) (exec (.svcA1 0x1#4 1#24) (st false false false .user))
      = some (0x00008004#32, .user) := by decide
/-- TV59: HCR.TGE is for User mode only. -/
theorem test_svcT1_tge_outside_user :
    nextField (fun t => (t.pc, t.cpsr.mode))
        (exec (.svcT1 1#8) { st true true true .supervisor with hcr := ⟨true⟩ })
      = some (0x20000008#32, .supervisor) := by decide
/-- TV57. -/
theorem test_svcT1_tge_in_user :
    nextField (fun t => (t.pc, t.cpsr.mode)) (exec (.svcT1 1#8) { st true true true .user with hcr := ⟨true⟩ })
      = some (0x40000014#32, .hyp) := by decide
/-- TV48, TV96: SCR.NS stays. -/
theorem test_smcA1_from_nonsecure :
    nextField (fun t => (t.pc, t.cpsr.mode, t.scr.ns, t.isSecure))
        (exec (.smcA1 14#4 0#4) (st true false true .supervisor))
      = some (0x30000008#32, .monitor, true, true) := by decide
/-- TV84. -/
theorem test_smcA1_unaligned_base :
    refusal (exec (.smcA1 14#4 0#4) { st true false true .supervisor with mvbar := 0x30000004#32 })
      = some (.unalignedVectorBase 0x30000004#32) := by decide
/-- TV97: SCR.NS is cleared. -/
theorem test_smcT1_from_monitor :
    nextField (fun t => (t.pc, t.cpsr.mode, t.scr.ns)) (exec (.smcT1 0#4) (st true false true .monitor))
      = some (0x30000008#32, .monitor, false) := by decide
/-- TV121. -/
theorem test_smcT1_does_not_exist :
    refusal (exec (.smcT1 0#4) (st false false false .supervisor)) = some .noSuchInstruction := by decide
/-- TV55, TV98. -/
theorem test_hvcA1_from_guest :
    nextField (fun t => (t.pc, t.cpsr.mode, t.spsr.hyp.mode)) (exec (.hvcA1 0#16) (st true true true .supervisor))
      = some (0x40000014#32, .hyp, .supervisor) := by decide
/-- TV56. -/
theorem test_hvcT1_from_hyp :
    nextField (fun t => (t.pc, t.cpsr.mode)) (exec (.hvcT1 0#16) (st true true true .hyp))
      = some (0x40000008#32, .hyp) := by decide
/-- TV133: `SRSDB SP!, #19`. -/
theorem test_srsA1_stores_below :
    nextField (fun t => (t.sp.svc, t.memS.readBytes 0x0000FFF8#32 4, t.memS.readBytes 0x0000FFFC#32 4))
        (exec (.srsA1 true false true 19#5) stIrq)
      = some (0x0000FFF8#32, .ok [0x78#8, 0x56#8, 0x34#8, 0x12#8], .ok [0x10#8, 0#8, 0#8, 0#8]) := by decide
/-- TV133, Thumb. -/
theorem test_srsT1_writes_back :
    nextField (fun t => (t.sp.svc, t.link.irq, t.cpsr.mode)) (exec (.srsT1 true 19#5) stIrq)
      = some (0x0000FFF8#32, 0x12345678#32, .irq) := by decide
/-- TV134: `SRSIA SP, #19`. -/
theorem test_srsT2_stores_above :
    nextField (fun t => (t.sp.svc, t.memS.read 0x00010000#32, t.memS.read 0x00010004#32, t.memS.read 0x0000FFFF#32))
        (exec (.srsT2 false 19#5) stIrq)
      = some (0x00010000#32, some 0x78#8, some 0x10#8, none) := by decide
/-- TV135. -/
theorem test_cpsA1_changes_mode :
    nextField (fun t => (t.pc, t.cpsr)) (exec (.cpsA1 0#2 true false false false 19#5) stIrq)
      = some (0x00008004#32, { stIrq.cpsr with mode := .supervisor }) := by decide
/-- TV137: Monitor mode. -/
theorem test_cpsA1_refuses_monitor :
    refusal (exec (.cpsA1 0#2 true false false false 22#5) stIrq) = some (.cpsTarget 22#5) := by decide
/-- TV138. -/
theorem test_cpsT1_enables_irq :
    nextField (fun t => (t.pc, t.cpsr.masks))
        (exec (.cpsT1 false false true false) { stIrq with cpsr := { stIrq.cpsr with masks := ⟨true, true, false⟩ } })
      = some (0x00008002#32, ⟨true, false, false⟩) := by decide
/-- TV129's operation in the Thumb form. -/
theorem test_cpsT2_disables_all :
    nextField (fun t => (t.cpsr.masks, t.cpsr.mode)) (exec (.cpsT2 3#2 true true true true 19#5) stIrq)
      = some (Masks.all, .supervisor) := by decide
/-- TV136. -/
theorem test_cpsT2_in_user_mode :
    nextField (fun t => (t.cpsr.masks, t.cpsr.mode))
        (exec (.cpsT2 3#2 true true true true 19#5) (st false false false .user))
      = some (Masks.none, .user) := by decide

/-- TV85. -/
theorem test_highest_vector :
    tableVector State.reset .securePL1 .fiq 0xFFFFFFE0#32 (offPL1 .fiq) = .ok 0xFFFFFFFC#32 := by decide

/-- TV73. -/
theorem test_svc_in_hyp_refused : refusal (exec (.svcT1 0#8) (st true true true .hyp)) = some .svcInHyp := by decide

/-- U13. -/
theorem test_smc_hvc_not_permitted :
    refusal (exec (.smcT1 0#4) (st true false false .user)) = some .callNotPermitted
      ∧ refusal (exec (.hvcA1 0#16) (st true true false .supervisor)) = some .callNotPermitted
      ∧ refusal (exec (.hvcT1 0#16) (st true true true .user)) = some .callNotPermitted := by decide
/-- R71: CPS runs its mode part and its mask part in Hyp mode, a PL2 mode; Hyp mode is no target (D20). -/
theorem test_cps_in_hyp_mode :
    nextField (fun t => (t.cpsr.mode, t.cpsr.masks, t.isSecure))
        (exec (.cpsA1 3#2 true false true false 19#5) (st true true true .hyp))
      = some (.supervisor, ⟨false, true, false⟩, false)
      ∧ refusal (exec (.cpsT2 0#2 true false false false 26#5) (st true true true .hyp)) = some (.cpsTarget 26#5) := by
  decide
/-- R103: no parameter routes SVC from Hyp mode through the unused entry; `0x08` is the architecture's (G8). -/
theorem test_svc_in_hyp_with_parameter :
    nextField (fun t => t.pc)
        (exec (.svcT1 0#8) { st true true true .hyp with impl := { Impl.full with svcFromHyp := some 1 } })
      = some 0x40000008#32 := by decide
/-- R6: the length is the implementation's, not the encoding's. -/
theorem test_length_is_a_parameter :
    nextField (fun t => t.pc)
        (exec (.cpsT1 true true true true)
          { stIrq with impl := { Impl.full with iLen := { ILen.family with cpsT1 := 6 } } })
      = some 0x00008006#32 := by decide

/-! ### The step -/

/-- A state of configuration B about to execute an ordinary instruction with the given writes. -/
def stExecute (ws : List RegWrite) (k : Mode) : State :=
  { st true false true k with inputs := [.execute ws 0x00009000#32] }

/-- R46: whether fetch follows CPSR.E is the implementation's. -/
theorem test_fetch_order_is_a_parameter :
    nextField (fun t => t.cpsr.masks)
        (step (State.withFetchWord
          { stIrq with
            impl := { stIrq.impl with fetchE1 := .big }
            cpsr := { stIrq.cpsr with e := true } } 32 0xF10C0080))
      = some ⟨false, true, false⟩ := by decide
/-- R5: any CPSR bit, any mode's cells, any address space, and SCR.NS outside Monitor mode. -/
theorem test_execute_is_unconstrained :
    nextField (fun t => (t.pc, t.cpsr.res, t.link.mon, t.memS.read 0x500#32, t.isSecure))
        (step (stExecute [.cpsrRes 5#4, .link .monitor 7#32, .store .securePL1 0x500#32 9#8, .scrNS false] .user))
      = some (0x00009000#32, 5#4, 7#32, some 9#8, true) := by decide
/-- R53: a store into the table, also where the base is moved away and back again around it: refused when it is
used. -/
theorem test_vector_tables_are_program_text :
    refusal (step (stExecute [.store .nonsecurePL1 0x2000001F#32 0#8] .supervisor))
        = some (.vectorTableStore 0x2000001F#32)
      ∧ (match step (stExecute [.vbar true 0#32, .store .nonsecurePL1 0x2000001F#32 0#8, .vbar true 0x20000000#32]
            .supervisor) with
        | .next t => refusal (exec (.svcT1 0#8) t)
        | _ => none) = some (.vectorTableStored 0x20000000#32) := by decide


theorem test_step_runs_a_placed_arm_word :
    nextField (fun t => (t.pc, t.cpsr.masks)) (step (State.reset.withFetchWord 32 0xF1080080))
      = some (4#32, ⟨true, false, true⟩) := by decide
theorem test_step_runs_a_placed_thumb_word :
    nextField (fun t => (t.pc, t.cpsr.mode)) (step (State.reset.withFetchWord 32 0xF3AF8112))
      = some (4#32, .irq) := by decide
theorem test_step_from_reset_finds_no_program :
    step State.reset = .fault (.unwrittenFetch 0#32) := rfl
theorem test_reset_memory_wf : State.reset.memS.wf = true := by decide

/-! ### Witnesses: hypotheses that can be met -/

/-- DecodeEncodeRoundTrip, at both ends of the condition field. -/
theorem witness_well_formed :
    (Instr.svcA1 0#4 0#24).wellFormed = true ∧ (Instr.smcA1 14#4 15#4).wellFormed = true
      ∧ (Instr.cpsT1 true true true true).wellFormed = true := by decide

/-- DecodedBytesAreTheEncoding, with a byte left over. -/
theorem witness_decoded_bytes :
    decode .arm .little [0x74#8, 0x23#8, 0x41#8, 0xE1#8, 9#8] = .ok (.hvcA1 0x1234#16, [9#8]) := by decide

/-- StatusWordRoundTrip: a word that names a mode, and where R16 puts the IT bits (`11` in [26:25], `0110` in [15:12],
`00` in [11:10]) and the unnamed four. -/
theorem witness_status_word :
    (∃ p, psrOfWord 0xF00001DF#32 = some p ∧ p.mode = .system)
      ∧ ∃ p, psrOfWord 0x06A06033#32 = some p ∧ p.it = 0x63#8 ∧ p.res = 0xA#4 ∧ p.iset = .thumb
        ∧ p.mode = .supervisor := ⟨⟨_, rfl, rfl⟩, _, rfl, rfl, rfl, rfl, rfl⟩

/-- AsyncTakenOnlyIfPendingAndUnmasked, last clause: an IRQ is takeable where the implementation chooses it and does not
mask it, as it may (the two are opaque); each disjunct before it needs no premise. -/
theorem witness_async (h : Config.masked .irq { stIrq with pending := ⟨true, false, false, false, false⟩ } = false) :
    ({ stIrq with pending := ⟨true, false, false, false, false⟩ } : State).inputs = []
      ∧ takeable { stIrq with pending := ⟨true, false, false, false, false⟩ } .irq = true := by
  simp [takeable, h]; decide

/-- A state whose next instruction is `CPSID i`, with something from outside in `inputs`. -/
def stCps (xs : List Input) : State :=
  { (st true true true .supervisor).withBytesAtPc [0x80#8, 0x00#8, 0x0C#8, 0xF1#8] with inputs := xs }

/-- StepRunsTheDecodedInstruction, both clauses. -/
theorem witness_step_runs :
    (Instr.cpsA1 3#2 false false true false 0#5).wellFormed = true
      ∧ (stCps []).cpsr.iset = (Instr.cpsA1 3#2 false false true false 0#5).iset
      ∧ pcAligned .arm (stCps []).pc = true
      ∧ ((stCps []).mem (stCps []).regime).readBytes (stCps []).pc 4
          = .ok ((encode (.cpsA1 3#2 false false true false 0#5)).bytes .little)
      ∧ (stCps []).inputs = [] ∧ anyTakeable (stCps []) = false
      ∧ (stCps [.quiet]).inputs = .quiet :: []
      ∧ anyTakeable { stCps [.quiet] with inputs := [] } = false := by decide

/-- StepKeepsLegal, PendingChangesFromOutsideOnly and ControlRegistersWrittenBySoftwareOnly: a legal state with a next
one and no input. -/
theorem witness_step_next :
    Legal (stCps []) ∧ (stCps []).inputs = [] ∧ ∃ t, step (stCps []) = .next t :=
  ⟨by unfold Legal; decide, rfl, _, rfl⟩

/-- ResetEntersSupervisorAtTheResetVector, each base: Hivecs, zero and the highest RESET_VBAR_S. -/
theorem witness_reset :
    (stCps [.reset .named]).inputs = .reset .named :: []
      ∧ tableReady (stCps []) .securePL1 0xFFFF0000#32 = true ∧ tableReady (stCps []) .securePL1 0x00000000#32 = true
      ∧ tableReady (stCps []) .securePL1 0xFFFFFFE0#32 = true := by decide

/-- BaseWithoutSecurityExtensions and BaseWithSecurityExtensions. -/
theorem witness_bases :
    (st false false false .user).impl.secExt = false ∧ (st false false false .user).sctlrS.v = false
      ∧ { st false false false .user with sctlrS := ⟨true, false⟩ }.sctlrS.v = true
      ∧ (st true false true .user).impl.secExt = true := by decide

/-- VectorArithmetic: bases of Monitor's, Hyp's and a PL1 table that are not multiples of 32 (TV83, TV84), one of a
reset, the highest base that is one, and the highest offsets. -/
theorem witness_vector_arithmetic :
    (tableUsed .monitor { st true false true .user with mvbar := 0x30000004#32 }).2.extractLsb' 0 5 ≠ 0#5
      ∧ targetMode .secureMonitorCall { st true false true .user with mvbar := 0x30000004#32 } = .ok .monitor
      ∧ (tableUsed .hyp { st true true true .user with hvbar := 0x4000001F#32 }).2.extractLsb' 0 5 ≠ 0#5
      ∧ targetMode .hypTrap { st true true true .user with hvbar := 0x4000001F#32 } = .ok .hyp
      ∧ (tableUsed .supervisor { st true false true .user with vbarNS := 0x10000010#32 }).2.extractLsb' 0 5 ≠ 0#5
      ∧ targetMode .supervisorCall { st true false true .user with vbarNS := 0x10000010#32 } = .ok .supervisor
      ∧ (0xFFFFFFE0#32).extractLsb' 0 5 = 0#5 ∧ tableStored State.reset .securePL1 0xFFFFFFE0#32 = false
      ∧ offPL1 .fiq = some 0x1C#32 ∧ offMon .fiq = some 0x1C#32 ∧ offHyp .full .fiq true = some 0x1C#32 := by decide
/-- `UsesTable`, of VectorArithmetic, EntryThroughAStoredTableIsRefused and VectorsAreFixedAtLaunch. -/
theorem witness_uses_table :
    UsesTable .secureMonitorCall .monitor (st true false true .user) ∧ UsesTable .hypTrap .hyp (st true true true .user)
      ∧ UsesTable .supervisorCall .supervisor (st true false true .user)
      ∧ UsesTable .virtualFIQ .fiq (st true true true .user) ∧ UsesTable .irq .irq (st false false false .user) := by
  refine ⟨?_, ?_, ?_, ?_, ?_⟩ <;> unfold UsesTable <;> decide
/-- EntryThroughAStoredTableIsRefused: a store to the last byte of the Non-secure table, and of the reset vector's. -/
theorem witness_stored_table :
    targetMode .supervisorCall { st true false true .user with stored := [(.nonsecurePL1, 0x2000001F#32)] }
        = .ok .supervisor
      ∧ tableStored { st true false true .user with stored := [(.nonsecurePL1, 0x2000001F#32)] } .nonsecurePL1
          0x20000000#32 = true
      ∧ tableUsed .supervisor (st true false true .user) = (.nonsecurePL1, 0x20000000#32)
      ∧ (0x20000000#32).extractLsb' 0 5 = 0#5
      ∧ tableStored { State.reset with stored := [(.securePL1, 0#32)] } .securePL1 0x00000000#32 = true := by decide
/-- StoredBytesAreRecorded and VectorsAreFixedAtLaunch: a step that stores, an entry and a reset. -/
theorem witness_launch :
    AsLaunched (st true false true .user).mem (st true false true .user)
      ∧ (∃ t, takeException .supervisorCall ⟨4#32, 0#8⟩ (st true false true .user) = .next t)
      ∧ (∃ t, takeReset .named (st true false true .user) = .next t)
      ∧ ∃ t, step (stExecute [.store .securePL1 0x500#32 9#8] .user) = .next t ∧ t.stored = [(.securePL1, 0x500#32)] :=
  ⟨fun _ _ _ => rfl, ⟨_, rfl⟩, ⟨_, rfl⟩, _, rfl, rfl⟩

/-- MonitorVector: a call and an interrupt. -/
theorem witness_monitor_vector :
    (∃ t, takeException .secureMonitorCall ⟨4#32, 0#8⟩ (st true false true .supervisor) = .next t
        ∧ t.cpsr.mode = .monitor)
      ∧ ∃ t, takeException .fiq ⟨4#32, 0#8⟩ { st true false true .user with scr := ⟨true, false, true⟩ } = .next t
        ∧ t.cpsr.mode = .monitor := ⟨⟨_, rfl, rfl⟩, _, rfl, rfl⟩

/-- HypVector: from another mode and from Hyp mode. -/
theorem witness_hyp_vector :
    (∃ t, takeException .hypTrap ⟨4#32, 0#8⟩ (st true true true .supervisor) = .next t ∧ t.cpsr.mode = .hyp
        ∧ (st true true true .supervisor).cpsr.mode ≠ .hyp)
      ∧ ∃ t, takeException .hypervisorCall ⟨4#32, 0#8⟩ (st true true true .hyp) = .next t ∧ t.cpsr.mode = .hyp
        ∧ (st true true true .hyp).cpsr.mode = .hyp := ⟨⟨_, rfl, rfl, by decide⟩, _, rfl, rfl, rfl⟩

/-- InterruptsRoutedToMonitor. -/
theorem witness_interrupts_to_monitor :
    (st true false true .user).impl.secExt = true
      ∧ tableReady (st true false true .user) .securePL1 (st true false true .user).mvbar = true
      ∧ { st true false true .user with scr := ⟨true, true, true⟩ }.scr.irq = true
      ∧ { st true false true .user with scr := ⟨true, true, true⟩ }.scr.fiq = true := by decide

/-- A state of configuration D of the vectors, with vectoring hardware and SCTLR.VE set. -/
def stVe : State :=
  { st false false false .user with
    impl := { Impl.full with secExt := false, virtExt := false }, sctlrS := ⟨false, true⟩ }

/-- VectoredInterrupts: vectored (TV75, TV76) and not (TV74), IRQ and FIQ. -/
theorem witness_vectored :
    (∃ t, takeException .irq ⟨4#32, 0#8⟩ stVe = .next t ∧ t.cpsr.mode = .irq ∧ t.pc = Config.vectoredAddr .irq 0)
      ∧ (∃ t, takeException .irq ⟨4#32, 0#8⟩ (st false false false .user) = .next t ∧ t.cpsr.mode = .irq
        ∧ t.pc = 0x18#32)
      ∧ (∃ t, takeException .fiq ⟨4#32, 0#8⟩ stVe = .next t ∧ t.cpsr.mode = .fiq)
      ∧ ∃ t, takeException .fiq ⟨4#32, 0#8⟩ (st false false false .user) = .next t ∧ t.cpsr.mode = .fiq :=
  ⟨⟨_, rfl, rfl, rfl⟩, ⟨_, rfl, rfl, rfl⟩, ⟨_, rfl, rfl⟩, _, rfl, rfl⟩

/-- VirtualExceptions: both settings of the vectoring hardware and SCTLR.VE. -/
theorem witness_virtual :
    (st true true true .supervisor).impl.virtExt = true ∧ (st true true true .supervisor).isSecure = false
      ∧ (st true true true .supervisor).cpsr.mode ≠ .hyp
      ∧ tableReady (st true true true .supervisor) .nonsecurePL1
          (excVectorBase (st true true true .supervisor) false) = true
      ∧ ¬ ((st true true true .supervisor).impl.vecIrq = true ∧ (st true true true .supervisor).sctlrNS.ve = true)
      ∧ { st true true true .user with impl := .full, sctlrNS := ⟨true, true⟩ }.impl.vecIrq = true
      ∧ { st true true true .user with impl := .full, sctlrNS := ⟨true, true⟩ }.sctlrNS.ve = true := by decide

/-- EntryIsTheSevenSteps, EntryOnlySetsMasks and EntryFrame: an entry, from a state with every mask set. -/
theorem witness_entry :
    ∃ t, takeException .supervisorCall ⟨4#32, 0#8⟩
      { st true true false .user with cpsr := { State.reset.cpsr with mode := .user } } = .next t := ⟨_, rfl⟩

/-- EntryFromMonitorClearsNS: from Monitor mode (TV95) and from elsewhere. -/
theorem witness_entry_from_monitor :
    (∃ t, takeException .supervisorCall ⟨4#32, 0#8⟩ (st true false true .monitor) = .next t ∧ t.scr.ns = false)
      ∧ ∃ t, takeException .supervisorCall ⟨4#32, 0#8⟩ (st true false true .user) = .next t ∧ t.scr.ns = true :=
  ⟨⟨_, rfl, rfl⟩, _, rfl, rfl⟩

/-- FailingInstructionsEnterPL1, without the Security Extensions and, where the route is to PL1, with them; and
HypTrapEntersHyp. -/
theorem witness_raise :
    (st false false false .user).impl.secExt = false
      ∧ tableReady (st false false false .user) .securePL1 (excVectorBase (st false false false .user) true) = true
      ∧ (stCps [.raise .undefinedInstruction]).inputs = .raise .undefinedInstruction :: []
      ∧ targetMode .undefinedInstruction (st true false false .user) = .ok .undefined
      ∧ tableReady (st true false false .user) .securePL1 (excVectorBase (st true false false .user) true) = true
      ∧ (stCps [.raise .hypTrap]).inputs = .raise .hypTrap :: [] ∧ (stCps []).impl.virtExt = true
      ∧ (stCps []).isSecure = false ∧ tableReady (stCps []) .pl2 (stCps []).hvbar = true := by decide

/-- SvcEntersSupervisor, FailedConditionDoesNothing, SvcWithTgeEntersHyp and SvcInHypNeedsItsParameter. -/
theorem witness_svc :
    (st true true true .user).cpsr.mode ≠ .hyp ∧ (st true true true .user).hcr.tge = false
      ∧ tableReady (st true true true .user) (tableRegime (st true true true .user).isSecure)
          (excVectorBase (st true true true .user) (st true true true .user).isSecure) = true
      ∧ condPasses 14#4 (st true true true .user).cpsr = true
      ∧ condPasses 1#4 (st true true true .user).cpsr = false
      ∧ { st true true true .user with hcr := ⟨true⟩ }.hcr.tge = true
      ∧ (st true true true .user).isSecure = false ∧ tableReady (st true true true .user) .pl2 0x40000000#32 = true
      ∧ (st true true true .hyp).cpsr.mode = .hyp ∧ (st true true true .hyp).impl.svcFromHyp = none
      ∧ { st true true true .hyp with impl := { Impl.full with svcFromHyp := some 2 } }.impl.svcFromHyp = some 2 := by
  decide

/-- SmcEntersMonitor, SmcNotPermitted, HvcEntersHyp and HvcNotPermitted. -/
theorem witness_smc_hvc :
    (st true true true .hyp).impl.secExt = true ∧ (st true true true .hyp).impl.virtExt = true
      ∧ (st true true true .hyp).cpsr.mode ≠ .user ∧ (st true true true .hyp).isSecure = false
      ∧ tableReady (st true true true .hyp) .securePL1 (st true true true .hyp).mvbar = true
      ∧ (st true true true .user).cpsr.mode = .user
      ∧ (st true true false .supervisor).isSecure = true ∧ (st false false false .user).impl.secExt = false
      ∧ (st true false true .user).impl.virtExt = false := by decide

/-- SrsStoresTheReturnState, the four addressing modes; SrsStackModes, a number of no mode. -/
theorem witness_srs :
    (∀ k : Mode, k.bits ≠ 0#5) ∧
    stIrq.cpsr.mode.excMode = some .irq ∧ ExcMode.irq ≠ .hyp ∧ srsStackMode stIrq 19#5 = some .supervisor
      ∧ ∀ p u, (srsAddress p u (stIrq.spOf .supervisor)).extractLsb' 0 2 = 0#2
        ∧ hitsVectorTable stIrq stIrq.regime (srsAddress p u (stIrq.spOf .supervisor)) 8 = false :=
  ⟨fun k => by cases k <;> decide, by decide⟩

/-- ThumbSrsIsArmSrs, SrsMisalignedAbortsOrStores and SrsStopsAndTraps: the lengths agree; the three encodings. -/
theorem witness_srs_forms :
    stIrq.impl.iLen.srsT1 = stIrq.impl.iLen.srsA1 ∧ stIrq.impl.iLen.srsT2 = stIrq.impl.iLen.srsA1
      ∧ IsSrs true true true 19#5 (.srsA1 true true true 19#5) ∧ IsSrs true false true 19#5 (.srsT1 true 19#5)
      ∧ IsSrs false true true 19#5 (.srsT2 true 19#5) := by
  unfold IsSrs; decide

/-- SrsMisalignedAbortsOrStores: the stack of IRQ mode at an odd address, off the vector table and in its last bytes. -/
theorem witness_srs_misaligned :
    srsStackMode { stIrq with sp := .const 0x00010001#32 } 18#5 = some .irq
      ∧ (srsAddress true false ({ stIrq with sp := .const 0x00010001#32 }.spOf .irq)).extractLsb' 0 2 ≠ 0#2
      ∧ hitsVectorTable { stIrq with sp := .const 0x00010001#32 } .securePL1
          (srsAddress true false ({ stIrq with sp := .const 0x00010001#32 }.spOf .irq)) 8 = false
      ∧ (srsAddress false true ({ stIrq with sp := .const 0x0000001F#32 }.spOf .irq)).extractLsb' 0 2 ≠ 0#2
      ∧ hitsVectorTable { stIrq with sp := .const 0x0000001F#32 } .securePL1
          (srsAddress false true ({ stIrq with sp := .const 0x0000001F#32 }.spOf .irq)) 8 = true := by decide

/-- SrsStopsAndTraps: each clause, the store at the last word that touches the table at 0. -/
theorem witness_srs_stops :
    (st true true false .system).cpsr.mode = .system ∧ (st true true true .hyp).cpsr.mode = .hyp
      ∧ stIrq.cpsr.mode.pl = .pl1 ∧ stIrq.cpsr.mode ≠ .system ∧ srsStackMode stIrq 16#5 = none
      ∧ srsStackMode stIrq 0#5 = none
      ∧ hitsVectorTable { stIrq with sp := .const 0x0000001C#32 } .securePL1
          (srsAddress false true ({ stIrq with sp := .const 0x0000001C#32 }.spOf .supervisor)) 8 = true := by decide

/-- CpsChangesMode, CpsChangesMasks, CpsDoesNothingInUserMode and CpsRefusesItsForbiddenTargets. -/
theorem witness_cps :
    stIrq.cpsr.mode ≠ .user ∧ (st true true true .hyp).cpsr.mode ≠ .user ∧ Mode.system ≠ .user ∧ Mode.system ≠ .monitor
      ∧ Mode.system ≠ .hyp
      ∧ (st true true true .user).cpsr.mode = .user ∧ Mode.ofBits 0#5 = none
      ∧ ¬ ∃ k ∈ [Mode.user, .fiq, .irq, .supervisor, .monitor, .abort, .hyp, .undefined, .system],
        k.bits = 0#5 := by decide

/-- ReturnRestoresPcAndCpsr: ARM and Thumb, at the highest aligned addresses; to User mode, to Monitor mode from Secure
state (P3 step 3), to Hyp mode from Hyp mode (P4 steps 3 and 4). -/
theorem witness_return :
    (stCps [.ret 0xFFFFFFFC#32 (st true true true .user).cpsr]).inputs
        = .ret 0xFFFFFFFC#32 (st true true true .user).cpsr :: []
      ∧ Mode.user.pl.rank ≤ (stCps []).cpsr.mode.pl.rank ∧ (0xFFFFFFFC#32).extractLsb' 0 2 = 0#2
      ∧ (0xFFFFFFFE#32).extractLsb' 0 1 = 0#1
      ∧ (st true false false .undefined).impl.secExt = true ∧ (st true false false .undefined).isSecure = true
      ∧ Mode.monitor.pl.rank ≤ (st true false false .undefined).cpsr.mode.pl.rank
      ∧ (st true true true .hyp).impl.virtExt = true ∧ (st true true true .hyp).isSecure = false
      ∧ Mode.hyp.pl.rank ≤ (st true true true .hyp).cpsr.mode.pl.rank := by decide

/-- IllegalReturnIsRefused: each alternative. -/
theorem witness_illegal_return :
    (st false false false .user).impl.secExt = false ∧ (st false false false .user).impl.virtExt = false
      ∧ Mode.user.pl.rank < Mode.supervisor.pl.rank ∧ (st true true true .supervisor).isSecure = false
      ∧ (0xFFFFFFFE#32).extractLsb' 0 2 ≠ 0#2 ∧ (0xFFFFFFFF#32).extractLsb' 0 1 ≠ 0#1 := by decide

/-- ReturnDoesNotAdjustIT, with IT bits set. -/
theorem witness_return_it :
    ∃ t, exceptionReturn 0x8002#32 { State.reset.cpsr with iset := .thumb, it := 0x0C#8 } State.reset = .next t :=
  ⟨_, rfl⟩

/-- RoutesOfEachException: a legal state and an exception routed to Hyp mode. -/
theorem witness_routes :
    Legal (st true true true .user) ∧ targetMode .hypTrap (st true true true .user) = .ok .hyp :=
  ⟨by unfold Legal; decide, rfl⟩

/-- ReturnAfterEntryResumes: from User mode, from Monitor mode and from Hyp mode. -/
theorem witness_resume :
    (∃ t, takeException .supervisorCall ⟨0x8004#32, 0#8⟩ (st true true false .user) = .next t
        ∧ targetMode .supervisorCall (st true true false .user) = .ok .supervisor
        ∧ pcAligned (st true true false .user).cpsr.iset 0x8004#32 = true)
      ∧ (∃ t, takeException .secureMonitorCall ⟨0x8004#32, 0#8⟩ (st true true true .monitor) = .next t
        ∧ targetMode .secureMonitorCall (st true true true .monitor) = .ok .monitor
        ∧ (st true true true .monitor).impl.secExt = true)
      ∧ ∃ t, takeException .hypervisorCall ⟨0x8004#32, 0#8⟩ (st true true true .hyp) = .next t
        ∧ targetMode .hypervisorCall (st true true true .hyp) = .ok .hyp
        ∧ (st true true true .hyp).impl.virtExt = true ∧ (st true true true .hyp).isSecure = false :=
  ⟨⟨_, rfl, rfl, rfl⟩, ⟨_, rfl, rfl, rfl⟩, _, rfl, rfl, rfl, rfl⟩

/-- NestedCallOverwritesItsOwnMode (TV145): from User mode, Thumb in Thumb, and from Supervisor mode ARM, with a
condition that passes, in Thumb. -/
theorem witness_nested :
    (∃ t u, exec (.svcT1 0#8) (st false false false .user) = .next t ∧ t.cpsr.mode = .supervisor
        ∧ exec (.svcT1 1#8) t = .next u)
      ∧ ∃ t u, exec (.svcT1 0#8) (st false false false .supervisor) = .next t ∧ t.cpsr.mode = .supervisor
        ∧ condPasses 14#4 t.cpsr = true ∧ exec (.svcA1 14#4 1#24) t = .next u :=
  ⟨⟨_, _, rfl, rfl, rfl⟩, _, _, rfl, rfl, rfl, rfl⟩

/-- SecureStateOnlyThroughMonitor: SMC in Non-secure state, with no input. -/
theorem witness_to_secure :
    (st true false true .supervisor).isSecure = false
      ∧ ((st true false true .supervisor).withFetchWord 32 0xE1600070).inputs = []
      ∧ ∃ t, step ((st true false true .supervisor).withFetchWord 32 0xE1600070) = .next t ∧ t.isSecure = true :=
  ⟨rfl, rfl, _, rfl, rfl⟩

/-- UserModeIsLeftByExceptionOnly: an exception, a reset and a failing instruction leave User mode; a CPS does not. -/
theorem witness_user_mode :
    (∃ t, exec (.svcT1 0#8) (st true true true .user) = .next t)
      ∧ (∃ t, exec (.cpsT1 true true true true) (st true true true .user) = .next t)
      ∧ (∃ t, step { st true true true .user with inputs := [.reset .named] } = .next t ∧ t.cpsr.mode ≠ .user)
      ∧ ∃ t, step { st false false false .user with inputs := [.raise .dataAbort] } = .next t ∧ t.cpsr.mode ≠ .user :=
  ⟨⟨_, rfl⟩, ⟨_, rfl⟩, ⟨_, rfl, by decide⟩, _, rfl, by decide⟩

/-- InstructionsWriteOwnAddressSpaceOnly and VectorTablesAreNotWritten: an SRS that stores, and the last byte of the
only table. -/
theorem witness_srs_stores :
    (∃ t, exec (.srsA1 true false true 19#5) stIrq = .next t) ∧ Regime.pl2 ≠ stIrq.regime
      ∧ (0#32) ∈ tableBases stIrq stIrq.regime ∧ (0x1F#32 - 0#32).toNat < 32 :=
  ⟨⟨_, rfl⟩, by decide, by decide, by decide⟩

/-- Writes of every special register the spec lets software write (R5), one register twice. -/
def someWrites : List RegWrite :=
  [.vbar true 1#32, .vbar false 2#32, .mvbar 3#32, .hvbar 4#32, .sctlrV true true, .sctlrVE false false,
    .sctlrVE true true, .scrNS true, .scrIRQ true, .scrFIQ true, .hcrTGE true, .link .monitor 5#32,
    .spsr .hyp default, .sp .system 6#32, .sp .user 7#32, .cpsrMasks .all, .vbar true 8#32]

/-- ExecuteCompletesWithItsWrites: a permitted list whose last write to VBAR stands, and a store just past a table. -/
theorem witness_execute :
    (∀ w ∈ someWrites, MayWrite (st true true true .user) w)
      ∧ someWrites = someWrites.dropLast ++ .vbar true 8#32 :: []
      ∧ HasStatedValue (st true true true .user).impl (.vbar true 8#32)
      ∧ Impl.hasRegime (st true true true .user).impl .nonsecurePL1 = true
      ∧ hitsVectorTable (st true true true .user) .nonsecurePL1 0x20000020#32 1 = false := by
  simp [someWrites, MayWrite, HasStatedValue]; decide
/-- R104: with the vectored-interrupt hardware SCTLR.VE is written as an ordinary bit; a written 0 reads 0 without it
too. -/
theorem test_sctlr_ve_written :
    nextField (fun t => t.sctlrS.ve)
        (step { stVe with sctlrS := ⟨false, false⟩, inputs := [.execute [.sctlrVE false true] 0x8004#32] }) = some true
      ∧ nextField (fun t => t.sctlrS.ve)
        (step { st false false false .user with inputs := [.execute [.sctlrVE false false] 0x8004#32] })
        = some false := by
  decide

end Sys2Proof.Tests
end

/-! # The scope of the machine: legal states, the abstract Execute, the Thumb forms of SRS -/

namespace Sys2Proof.Machine

/-! ### What a legal state gives, and how another state comes to be legal -/

theorem Legal.hasMode {s : State} (h : Legal s) : Impl.hasMode s.impl s.cpsr.mode = true := h.2.1

theorem Legal.ns_of_hyp {s : State} (h : Legal s) (hm : s.cpsr.mode = .hyp) : s.scr.ns = true := by
  obtain ⟨_, _, hhyp, _⟩ := h
  exact hhyp hm

/-- In a legal state every address space is canonical. -/
theorem Legal.mem_wf {s : State} (h : Legal s) (r : Regime) : (s.mem r).wf = true := by
  obtain ⟨_, _, _, hS, hNS, hHyp⟩ := h
  cases r
  · exact hS
  · exact hNS
  · exact hHyp

/-- A state of a legal state's implementation is legal where its mode exists and suits its security state, and its
address spaces are canonical. -/
theorem Legal.of_impl_eq {s t : State} (hs : Legal s) (impl : t.impl = s.impl)
    (mode : Impl.hasMode s.impl t.cpsr.mode = true) (hyp : t.cpsr.mode = .hyp → t.scr.ns = true)
    (wf : ∀ r, (t.mem r).wf = true) : Legal t :=
  ⟨impl ▸ hs.1, impl ▸ mode, hyp, wf .securePL1, wf .nonsecurePL1, wf .pl2⟩

/-- A state that keeps a legal state's implementation, mode and `SCR.NS` is legal where its address spaces are
canonical. -/
theorem Legal.of_same_mode {s t : State} (hs : Legal s) (impl : t.impl = s.impl) (mode : t.cpsr.mode = s.cpsr.mode)
    (ns : t.scr.ns = s.scr.ns) (wf : ∀ r, (t.mem r).wf = true) : Legal t :=
  hs.of_impl_eq impl (mode ▸ hs.hasMode) (fun h => ns ▸ hs.ns_of_hyp (mode ▸ h)) wf

/-- `Legal` reads neither the pc, nor the inputs still to come, nor the number of draws used up. -/
theorem legal_pc_inputs_draws {s : State} (h : Legal s) (pc : Word) (xs : List Input) (n : Nat) :
    Legal { s with pc := pc, inputs := xs, draws := n } := h

theorem legal_afterChoice {s : State} (h : Legal s) : Legal (afterChoice s) := by
  unfold afterChoice
  split
  · exact legal_pc_inputs_draws h s.pc s.inputs _
  · exact h

/-! ### Each shared operation keeps a legal state legal -/

/-- A legal state from which an exception is taken to Hyp mode has the Virtualization Extensions, is not in Monitor
mode, and has `SCR.NS` set (R13, R93). -/
theorem Legal.virtExt_ns_of_targetMode_hyp {e : Exc} {s : State} (hs : Legal s) (h : targetMode e s = .ok .hyp) :
    s.impl.virtExt = true ∧ s.cpsr.mode ≠ .monitor ∧ s.scr.ns = true := by
  rcases targetMode_hyp h with hp | hm
  · simp only [State.hypPossible, Bool.and_eq_true, Bool.not_eq_true'] at hp
    exact ⟨hp.1, (isSecure_false hp.2).2⟩
  · have hmode := hs.hasMode
    rw [hm] at hmode
    exact ⟨hmode, by simp [hm], hs.ns_of_hyp hm⟩

/-- The mode an exception is taken to exists (R13). -/
theorem Legal.hasMode_targetMode {e : Exc} {s : State} {tgt : ExcMode} (hs : Legal s)
    (h : targetMode e s = .ok tgt) : Impl.hasMode s.impl tgt.toMode = true := by
  cases tgt with
  | monitor => exact targetMode_monitor h
  | hyp => exact (hs.virtExt_ns_of_targetMode_hyp h).1
  | supervisor | undefined | abort | irq | fiq => rfl

theorem takeException_keeps_legal {e : Exc} {ctx : Ctx} {s t : State} (hs : Legal s)
    (h : takeException e ctx s = .next t) : Legal t := by
  obtain ⟨tgt, vec, htgt, _, rfl⟩ := takeException_next h
  refine hs.of_impl_eq rfl (hs.hasMode_targetMode htgt) (fun hm => ?_) fun r => by simpa using hs.mem_wf r
  have htgt' : tgt = .hyp := by cases tgt <;> first | rfl | cases hm
  subst htgt'
  obtain ⟨_, hmon, hns⟩ := hs.virtExt_ns_of_targetMode_hyp htgt
  exact (nsAfterEntry_of_ne hmon).trans hns

theorem legal_advance {s : State} (h : Legal s) (n : Nat) : Legal (advance n s) := h

theorem legal_storeReturnState {s : State} (hs : Legal s) (m : ExcMode) (stack : Mode) (a : Word)
    (back : Option Word) : Legal (storeReturnState m stack a back s) := by
  have wf (r : Regime) : ((storeReturnState m stack a back s).mem r).wf = true := by
    by_cases hr : r = s.regime
    · subst hr
      rw [storeReturnState_mem]
      exact Memory.writeWord_wf _ _ _ (Memory.writeWord_wf _ _ _ (hs.mem_wf _))
    · rw [storeReturnState_mem_other _ _ _ _ _ hr]
      exact hs.mem_wf r
  obtain ⟨b, u, hframe⟩ := storeReturnState_frame m stack a back s
  exact hs.of_same_mode (by simp [hframe]) (by simp [hframe]) (by simp [hframe]) wf

/-- A change of mode to one that exists in every implementation and both security states, as CPS makes it (R71). -/
theorem legal_changeMode {s : State} (hs : Legal s) (masks : Masks) {k : Mode}
    (hk : k = s.cpsr.mode ∨ k ≠ .user ∧ k ≠ .monitor ∧ k ≠ .hyp) :
    Legal { s with cpsr := { s.cpsr with masks := masks, mode := k } } := by
  rcases hk with rfl | ⟨_, hmon, hhyp⟩
  · exact hs
  · refine hs.of_impl_eq rfl ?_ (fun h => absurd h hhyp) hs.mem_wf
    cases k with
    | monitor => exact absurd rfl hmon
    | hyp => exact absurd rfl hhyp
    | user | fiq | irq | supervisor | abort | undefined | system => rfl

theorem exec_keeps_legal {i : Instr} {s t : State} (hs : Legal s) (h : exec i s = .next t) : Legal t := by
  rcases exec_next h with ⟨e, ctx, he⟩ | ⟨n, rfl⟩ | ⟨n, m, stack, a, back, _, _, rfl⟩ | ⟨n, masks, k, _, hk, rfl⟩
  · exact takeException_keeps_legal hs he
  · exact legal_advance hs n
  · exact legal_advance (legal_storeReturnState hs m stack a back) n
  · exact legal_advance (legal_changeMode hs masks hk) n

theorem exceptionReturn_keeps_legal {addr : Word} {psr : PSR} {s t : State} (hs : Legal s)
    (h : exceptionReturn addr psr s = .next t) : Legal t := by
  obtain ⟨hcheck, rfl⟩ := exceptionReturn_next h
  obtain ⟨hmode, hsec, _⟩ := returnCheck_none hcheck
  refine hs.of_impl_eq rfl hmode (fun hm => ?_) hs.mem_wf
  have hns : s.isSecure = false := by simpa [show psr.mode = .hyp from hm, Mode.inSecurity] using hsec
  exact (isSecure_false hns).2.2

theorem takeReset_keeps_legal {d : ResetDraw} {s t : State} (hs : Legal s) (h : takeReset d s = .next t) :
    Legal t := by
  obtain ⟨_, rfl⟩ := takeReset_next h
  exact hs.of_impl_eq rfl rfl (fun hm => nomatch hm) hs.mem_wf

theorem applyWrites_keeps_legal {ws : List RegWrite} {s t : State} (hs : Legal s) (h : applyWrites ws s = .ok t) :
    Legal t := by
  have keeps := applyWrites_ok h
  refine hs.of_impl_eq keeps.impl (keeps.mode ▸ hs.hasMode) (fun hm => ?_) (keeps.wf hs.mem_wf)
  have hm' : s.cpsr.mode = .hyp := keeps.mode ▸ hm
  exact keeps.nsHyp hm' (hs.ns_of_hyp hm')

/-! ### The step -/

theorem runBoundary_keeps_legal {s t : State} (hs : Legal s) (h : runBoundary s = .next t) : Legal t := by
  rcases runBoundary_next h with ⟨x, _, hx⟩ | ⟨_, i, _, hi⟩
  · exact takeException_keeps_legal (legal_afterChoice hs) hx
  · exact exec_keeps_legal (legal_afterChoice hs) hi

theorem applyInput_keeps_legal {i : Input} {s t : State} (hs : Legal s) (h : applyInput i s = .next t) :
    Legal t := by
  cases i with
  | quiet => exact runBoundary_keeps_legal hs h
  | pending p => cases h; exact hs
  | reset d => exact takeReset_keeps_legal hs h
  | raise c => exact takeException_keeps_legal hs h
  | ret addr psr => exact exceptionReturn_keeps_legal hs h
  | execute ws next =>
    simp only [applyInput] at h
    split at h
    · cases h
    · rename_i u hu
      cases h
      exact legal_pc_inputs_draws (applyWrites_keeps_legal hs hu) next u.inputs u.draws

/-- Settles O50: each thing a step can do keeps a legal state legal. -/
theorem stepKeepsLegal : Obligations.StepKeepsLegal := by
  intro s t hs h
  rcases step_cases s with ⟨_, hstep⟩ | ⟨i, rest, _, hstep⟩
  · exact runBoundary_keeps_legal hs (hstep ▸ h)
  · exact applyInput_keeps_legal (legal_pc_inputs_draws hs s.pc rest s.draws) (hstep ▸ h)

/-- Settles O51. -/
theorem resetIsLegal : Obligations.ResetIsLegal := by
  unfold Obligations.ResetIsLegal
  exact ⟨rfl, rfl, fun h => absurd h (by decide), rfl, rfl, rfl⟩

/-! ### What the abstract Execute writes -/

/-- Whether a register write is permitted depends on the implementation and the mode only. -/
theorem mayWrite_congr {s t : State} (impl : t.impl = s.impl) (mode : t.cpsr.mode = s.cpsr.mode) (w : RegWrite) :
    MayWrite t w ↔ MayWrite s w := by
  cases w <;> simp only [MayWrite, impl, mode]

/-- The pc and the inputs still to come are no place a write is to. -/
theorem holds_pc_inputs (w : RegWrite) (s : State) (pc : Word) (xs : List Input) :
    Holds w { s with pc := pc, inputs := xs } ↔ Holds w s := by
  cases w <;> exact Iff.rfl

/-- The state `t` is `s` after the register writes `ws`, in order: the counterpart of `RegisterWritten` for a list. -/
structure RegistersWritten (ws : List RegWrite) (s t : State) : Prop where
  inputs : t.inputs = s.inputs
  impl : t.impl = s.impl
  mode : t.cpsr.mode = s.cpsr.mode
  pending : t.pending = s.pending
  draws : t.draws = s.draws
  mem : ∀ r, t.mem r = s.mem r
  stored : t.stored = s.stored
  lastWrite : ∀ pre w post, ws = pre ++ w :: post → (∀ v ∈ post, placeOf v ≠ placeOf w) →
    HasStatedValue s.impl w → Holds w t
  others : ∀ w, (∀ v ∈ ws, placeOf v ≠ placeOf w) → Holds w s → Holds w t

theorem RegistersWritten.nil (s : State) : RegistersWritten [] s s where
  inputs := rfl
  impl := rfl
  mode := rfl
  pending := rfl
  draws := rfl
  mem _ := rfl
  stored := rfl
  lastWrite pre w post h := by simp at h
  others _ _ h := h

/-- One write, then the others: the value the first one writes stands where none of the others is to its place. -/
theorem RegistersWritten.cons {w : RegWrite} {ws : List RegWrite} {s t u : State} (h : RegisterWritten w s t)
    (hs : RegistersWritten ws t u) : RegistersWritten (w :: ws) s u where
  inputs := hs.inputs.trans h.inputs
  impl := hs.impl.trans h.impl
  mode := hs.mode.trans h.mode
  pending := hs.pending.trans h.pending
  draws := hs.draws.trans h.draws
  mem r := (hs.mem r).trans (h.mem r)
  stored := hs.stored.trans h.stored
  lastWrite pre v post heq hpost hval := by
    cases pre with
    | nil =>
      obtain ⟨rfl, rfl⟩ := List.cons.inj heq
      exact hs.others w hpost (h.written hval)
    | cons x pre =>
      obtain ⟨_, htail⟩ := List.cons.inj heq
      exact hs.lastWrite pre v post htail hpost (h.impl.symm ▸ hval)
  others v hne hv := by
    obtain ⟨hw, hws⟩ := List.forall_mem_cons.1 hne
    exact hs.others v hws (h.others v hw.symm hv)

/-- Permitted register writes are made, each one, in order (R5, D1). -/
theorem applyWrites_of_mayWrite {ws : List RegWrite} {s : State} (h : ∀ w ∈ ws, MayWrite s w) :
    ∃ t, applyWrites ws s = .ok t ∧ RegistersWritten ws s t := by
  induction ws generalizing s with
  | nil => exact ⟨s, rfl, .nil s⟩
  | cons w ws ih =>
    obtain ⟨hw, hws⟩ := List.forall_mem_cons.1 h
    obtain ⟨u, hu, written⟩ := applyWrite_of_mayWrite hw
    obtain ⟨t, ht, writtens⟩ := ih fun v hv => (mayWrite_congr written.impl written.mode v).2 (hws v hv)
    exact ⟨t, by simp only [applyWrites, hu, ht], .cons written writtens⟩

/-! ### One byte stored -/

/-- A store of one byte leaves every other byte. -/
theorem store_byte_read_other (s : State) {r k : Regime} {a x : Word} (b : Byte) (h : k ≠ r ∨ x ≠ a) :
    ((s.store r a [b]).mem k).read x = (s.mem k).read x := by
  by_cases hk : k = r
  · subst hk
    rw [store_mem_same]
    exact Memory.read_write_other _ b (h.resolve_left (not_not_intro rfl))
  · rw [store_mem_other s a [b] hk]

/-- A store of one byte leaves every register, and every other byte. -/
theorem holds_store_byte {w : RegWrite} {s : State} {r : Regime} {a : Word} (b : Byte)
    (hne : placeOf w ≠ .store r a 0#8) (h : Holds w s) : Holds w (s.store r a [b]) := by
  cases w with
  | store k x c =>
    have hne' : k ≠ r ∨ x ≠ a := by
      by_contra hc
      obtain ⟨rfl, rfl⟩ := by simpa only [not_or, not_not] using hc
      exact hne rfl
    exact (store_byte_read_other s b hne').trans h
  | _ => cases r <;> exact h

/-- The record of stores gains the byte stored, and nothing else (R53). -/
theorem mem_store_byte_stored {s : State} {r : Regime} {a : Word} {b : Byte} {p : Regime × Word} :
    p ∈ (s.store r a [b]).stored ↔ p ∈ s.stored ∨ p = (r, a) := by
  simp [mem_markStored]

/-- A store outside the vector tables of an address space this configuration has is made (R41, R53). -/
theorem applyWrites_store {s : State} {r : Regime} {a : Word} (b : Byte) (hr : Impl.hasRegime s.impl r = true)
    (ha : hitsVectorTable s r a 1 = false) : applyWrites [.store r a b] s = .ok (s.store r a [b]) := by
  simp [applyWrites, applyWrite, hr, ha]

/-! ### The input execute -/

/-- Where its writes are made, the input execute completes and goes on at its pc. -/
theorem step_execute {s t : State} {ws : List RegWrite} {next : Word} {rest : List Input}
    (hi : s.inputs = .execute ws next :: rest) (h : applyWrites ws { s with inputs := rest } = .ok t) :
    step s = .next { t with pc := next } := by
  simp only [step, hi, applyInput, h]

theorem execute_completes_with_registers {s : State} {ws : List RegWrite} {next : Word} {rest : List Input}
    (hi : s.inputs = .execute ws next :: rest) (h : ∀ w ∈ ws, MayWrite s w) :
    ∃ t, step s = .next t ∧ GoesOn next rest s t
      ∧ (∀ pre w post, ws = pre ++ w :: post → (∀ v ∈ post, placeOf v ≠ placeOf w) → HasStatedValue s.impl w →
        Holds w t)
      ∧ (∀ w, (∀ v ∈ ws, placeOf v ≠ placeOf w) → Holds w s → Holds w t)
      ∧ SameMemory s t ∧ t.stored = s.stored := by
  obtain ⟨t, ht, written⟩ := applyWrites_of_mayWrite (s := { s with inputs := rest })
    fun w hw => (mayWrite_congr rfl rfl w).2 (h w hw)
  refine ⟨_, step_execute hi ht, ?_, ?_, ?_, ?_, written.stored⟩
  · exact ⟨rfl, written.inputs, written.impl, written.mode, written.pending, written.draws⟩
  · intro pre w post heq hpost hval
    exact (holds_pc_inputs w t next t.inputs).2 (written.lastWrite pre w post heq hpost hval)
  · intro w hne hw
    exact (holds_pc_inputs w t next t.inputs).2
      (written.others w hne ((holds_pc_inputs w s s.pc rest).2 hw))
  · intro r x
    exact congrArg (Memory.read · x) (written.mem r)

theorem execute_completes_with_store {s : State} {next : Word} {rest : List Input} {r : Regime} {a : Word} {b : Byte}
    (hi : s.inputs = .execute [.store r a b] next :: rest) (hr : Impl.hasRegime s.impl r = true)
    (ha : hitsVectorTable s r a 1 = false) :
    ∃ t, step s = .next t ∧ GoesOn next rest s t ∧ (t.mem r).read a = some b
      ∧ (∀ w, placeOf w ≠ .store r a 0#8 → Holds w s → Holds w t)
      ∧ SameMemoryOutside r a 1 s t ∧ ∀ p, p ∈ t.stored ↔ p ∈ s.stored ∨ p = (r, a) := by
  refine ⟨_, step_execute hi (applyWrites_store (s := { s with inputs := rest }) b hr ha), ?_, ?_, ?_, ?_, ?_⟩
  · exact ⟨rfl, store_inputs _ r a [b], store_impl _ r a [b], congrArg PSR.mode (store_cpsr _ r a [b]),
      store_pending _ r a [b], store_draws _ r a [b]⟩
  · exact (congrArg (Memory.read · a) (store_mem_same _ r a [b])).trans (Memory.read_write_same _ a b)
  · intro w hne hw
    exact (holds_pc_inputs w _ next _).2 (holds_store_byte b hne ((holds_pc_inputs w s s.pc rest).2 hw))
  · intro k x hx
    exact store_byte_read_other { s with inputs := rest } b (hx.imp_right fun h => by simpa using h 0 Nat.one_pos)
  · intro p
    exact mem_store_byte_stored (s := { s with inputs := rest }) (b := b)

/-- Settles O60: the writes are made in order, so that the last one to a register stands. -/
theorem executeCompletesWithItsWrites : Obligations.ExecuteCompletesWithItsWrites := by
  intro s ws next rest hi
  refine ⟨execute_completes_with_registers hi, ?_⟩
  rintro r a b rfl hr ha
  exact execute_completes_with_store hi hr ha

/-! ### The Thumb forms of SRS -/

/-- Two encodings of SRS with the same addressing mode and the same length have the same outcome (R57, R70). -/
theorem exec_eq_of_isSrs {p u w : Bool} {mode : BitVec 5} {i j : Instr} {s : State} (hi : IsSrs p u w mode i)
    (hj : IsSrs p u w mode j) (hlen : lengthOf s.impl.iLen i = lengthOf s.impl.iLen j) : exec i s = exec j s := by
  rw [exec_of_isSrs hi, exec_of_isSrs hj, hlen]

/-- Settles O40: SRSDB is SRS with `P`, `U` = 1, 0, and SRSIA is SRS with `P`, `U` = 0, 1. -/
theorem thumbSrsIsArmSrs : Obligations.ThumbSrsIsArmSrs := fun _ _ _ =>
  ⟨fun h => exec_eq_of_isSrs (.inr (.inl ⟨rfl, rfl, rfl⟩)) (.inl rfl) h,
    fun h => exec_eq_of_isSrs (.inr (.inr ⟨rfl, rfl, rfl⟩)) (.inl rfl) h⟩

end Sys2Proof.Machine

/-! # The state: what a step keeps of it, the state after reset, the layout of the status word -/

namespace Sys2Proof.Machine

/-! ### One step, said once -/

/-- What the machine does by itself: one of the things an instruction can do, or an exception return. -/
def MachineMoves (s t : State) : Prop := ExecCases s t ∨ ∃ addr psr, exceptionReturn addr psr s = .next t

theorem machineMoves_of_takeException {e : Exc} {ctx : Ctx} {s t : State} (h : takeException e ctx s = .next t) :
    MachineMoves s t :=
  .inl (.inl ⟨e, ctx, h⟩)

/-- A choice among asynchronous exceptions uses up draws and nothing else. -/
theorem afterChoice_eq (s : State) : ∃ n, afterChoice s = { s with draws := n } := by
  unfold afterChoice
  split
  · exact ⟨_, rfl⟩
  · exact ⟨s.draws, rfl⟩

theorem runBoundary_machineMoves {s t : State} (h : runBoundary s = .next t) :
    ∃ n, MachineMoves { s with draws := n } t := by
  obtain ⟨n, hn⟩ := afterChoice_eq s
  refine ⟨n, hn ▸ ?_⟩
  rcases runBoundary_next h with ⟨x, _, hx⟩ | ⟨_, i, _, hi⟩
  · exact machineMoves_of_takeException hx
  · exact .inl (exec_next hi)

/-- A completed step is the machine's own move, but for the three inputs that change the state from outside: a new
Pending set, a reset, and an ordinary instruction (R5, R29, R140). -/
theorem step_next {s t : State} (h : step s = .next t) :
    (∃ xs n, MachineMoves { s with inputs := xs, draws := n } t) ∨
    (∃ p rest, s.inputs = .pending p :: rest ∧ t = { s with inputs := rest, pending := p }) ∨
    (∃ d rest, s.inputs = .reset d :: rest ∧ takeReset d { s with inputs := rest } = .next t) ∨
    (∃ ws next rest u, s.inputs = .execute ws next :: rest ∧ applyWrites ws { s with inputs := rest } = .ok u ∧
      t = { u with pc := next }) := by
  rcases step_cases s with ⟨_, hstep⟩ | ⟨i, rest, hi, hstep⟩ <;> rw [hstep] at h
  · obtain ⟨n, hn⟩ := runBoundary_machineMoves h
    exact .inl ⟨s.inputs, n, hn⟩
  · cases i with
    | quiet =>
      obtain ⟨n, hn⟩ := runBoundary_machineMoves h
      exact .inl ⟨rest, n, hn⟩
    | pending p => cases h; exact .inr (.inl ⟨p, rest, hi, rfl⟩)
    | reset d => exact .inr (.inr (.inl ⟨d, rest, hi, h⟩))
    | raise c => exact .inl ⟨rest, s.draws, machineMoves_of_takeException h⟩
    | ret addr psr => exact .inl ⟨rest, s.draws, .inr ⟨addr, psr, h⟩⟩
    | execute ws next =>
      simp only [applyInput] at h
      split at h
      · cases h
      · cases h
        exact .inr (.inr (.inr ⟨ws, next, rest, _, hi, ‹_›, rfl⟩))

/-! ### The registers that the machine's own moves never write (R122) -/

theorem SameControl.refl (s : State) : SameControl s s := ⟨rfl, rfl, rfl, rfl, rfl, rfl, rfl, rfl, rfl, rfl, rfl⟩

theorem takeException_sameControl {e : Exc} {ctx : Ctx} {s t : State} (h : takeException e ctx s = .next t) :
    SameControl s t := by
  obtain ⟨tgt, vec, _, _, rfl⟩ := takeException_next h
  exact .refl s

theorem exceptionReturn_sameControl {addr : Word} {psr : PSR} {s t : State}
    (h : exceptionReturn addr psr s = .next t) : SameControl s t := by
  obtain ⟨_, rfl⟩ := exceptionReturn_next h
  exact .refl s

theorem storeReturnState_sameControl (m : ExcMode) (stack : Mode) (a : Word) (back : Option Word) (s : State) :
    SameControl s (storeReturnState m stack a back s) := by
  obtain ⟨b, u, hframe⟩ := storeReturnState_frame m stack a back s
  rw [hframe]
  simp [SameControl]

theorem execCases_sameControl {s t : State} (h : ExecCases s t) : SameControl s t := by
  rcases h with ⟨e, ctx, he⟩ | ⟨n, rfl⟩ | ⟨n, m, stack, a, back, _, _, rfl⟩ | ⟨n, masks, k, _, _, rfl⟩
  · exact takeException_sameControl he
  · exact .refl s
  · exact storeReturnState_sameControl m stack a back s
  · exact .refl s

theorem MachineMoves.sameControl {s t : State} (h : MachineMoves s t) : SameControl s t := by
  rcases h with hexec | ⟨addr, psr, hret⟩
  · exact execCases_sameControl hexec
  · exact exceptionReturn_sameControl hret

theorem takeReset_impl {d : ResetDraw} {s t : State} (h : takeReset d s = .next t) : t.impl = s.impl := by
  obtain ⟨_, rfl⟩ := takeReset_next h
  rfl

/-- No step changes the implementation (R32). -/
theorem step_impl {s t : State} (h : step s = .next t) : t.impl = s.impl := by
  rcases step_next h with ⟨xs, n, hm⟩ | ⟨p, rest, _, rfl⟩ | ⟨d, rest, _, hr⟩ | ⟨ws, next, rest, u, _, hu, rfl⟩
  · obtain ⟨impl, _⟩ := hm.sameControl
    exact impl
  · rfl
  · exact (takeReset_impl hr :)
  · exact (applyWrites_ok hu).impl

/-- Settles O7: of the things a step can do, only the two inputs named write Pending. -/
theorem pendingChangesFromOutsideOnly : Obligations.PendingChangesFromOutsideOnly := by
  intro s t h hpending hreset
  rcases step_next h with ⟨xs, n, hm⟩ | ⟨p, rest, hi, _⟩ | ⟨d, rest, hi, _⟩ | ⟨ws, next, rest, u, _, hu, rfl⟩
  · obtain ⟨_, _, _, _, _, _, _, _, _, _, pending⟩ := hm.sameControl
    exact pending
  · exact absurd hi (hpending p rest)
  · exact absurd hi (hreset d rest)
  · exact (applyWrites_ok hu).pending

/-- Settles O53. -/
theorem controlRegistersWrittenBySoftwareOnly : Obligations.ControlRegistersWrittenBySoftwareOnly := by
  intro s t h
  refine ⟨step_impl h, fun hreset hexecute => ?_⟩
  rcases step_next h with ⟨xs, n, hm⟩ | ⟨p, rest, _, rfl⟩ | ⟨d, rest, hi, _⟩ | ⟨ws, next, rest, u, hi, _⟩
  · obtain ⟨_, sctlrS, sctlrNS, vbarS, vbarNS, mvbar, hvbar, irq, fiq, hcr, _⟩ := hm.sameControl
    exact ⟨sctlrS, sctlrNS, vbarS, vbarNS, mvbar, hvbar, irq, fiq, hcr⟩
  · exact ⟨rfl, rfl, rfl, rfl, rfl, rfl, rfl, rfl, rfl⟩
  · exact absurd hi (hreset d rest)
  · exact absurd hi (hexecute ws next rest)

/-! ### From Non-secure to Secure state (R15, R114) -/

/-- With the implementation kept and `SCR.NS` left set, a Non-secure state becomes Secure by its mode alone (R15). -/
theorem mode_monitor_of_isSecure {s t : State} (hs : s.isSecure = false) (impl : t.impl = s.impl)
    (ns : t.scr.ns = true) (ht : t.isSecure = true) : t.cpsr.mode = .monitor := by
  obtain ⟨hsec, _, _⟩ := isSecure_false hs
  simpa [State.isSecure, impl, hsec, ns] using ht

theorem takeException_ns {e : Exc} {ctx : Ctx} {s t : State} (hm : s.cpsr.mode ≠ .monitor)
    (h : takeException e ctx s = .next t) : t.scr.ns = s.scr.ns := by
  obtain ⟨tgt, vec, _, _, rfl⟩ := takeException_next h
  exact nsAfterEntry_of_ne hm

theorem execCases_ns {s t : State} (hm : s.cpsr.mode ≠ .monitor) (h : ExecCases s t) : t.scr.ns = s.scr.ns := by
  rcases h with ⟨e, ctx, he⟩ | ⟨n, rfl⟩ | ⟨n, m, stack, a, back, _, _, rfl⟩ | ⟨n, masks, k, _, _, rfl⟩
  · exact takeException_ns hm he
  · rfl
  · obtain ⟨b, u, hframe⟩ := storeReturnState_frame m stack a back s
    simp [hframe]
  · rfl

/-- From a mode other than Monitor the machine's own moves leave `SCR.NS`: only entry from Monitor mode writes it
(R114). -/
theorem MachineMoves.ns {s t : State} (h : MachineMoves s t) (hm : s.cpsr.mode ≠ .monitor) :
    t.scr.ns = s.scr.ns := by
  rcases h with hexec | ⟨addr, psr, hret⟩
  · exact execCases_ns hm hexec
  · obtain ⟨_, rfl⟩ := exceptionReturn_next hret
    rfl

/-- From a Non-secure state only a reset or an ordinary instruction clears `SCR.NS`. -/
theorem step_ns_of_nonsecure {s t : State} (h : step s = .next t) (hs : s.isSecure = false)
    (hreset : ∀ d rest, s.inputs ≠ .reset d :: rest)
    (hexecute : ∀ ws next rest, s.inputs = .execute ws next :: rest → RegWrite.scrNS false ∉ ws) :
    t.scr.ns = true := by
  obtain ⟨_, hmode, hns⟩ := isSecure_false hs
  rcases step_next h with ⟨xs, n, hm⟩ | ⟨p, rest, _, rfl⟩ | ⟨d, rest, hi, _⟩ | ⟨ws, next, rest, u, hi, hu, rfl⟩
  · exact (hm.ns hmode).trans hns
  · exact hns
  · exact absurd hi (hreset d rest)
  · exact (applyWrites_ok hu).ns (hexecute ws next rest hi) hns

/-- Settles O52: no such step clears `SCR.NS`, so only the mode can make the state Secure. -/
theorem secureStateOnlyThroughMonitor : Obligations.SecureStateOnlyThroughMonitor :=
  fun _ _ h hs hreset hexecute ht =>
    mode_monitor_of_isSecure hs (step_impl h) (step_ns_of_nonsecure h hs hreset hexecute) ht

/-! ### Reset (R140, R141) -/

/-- The base of the table a reset uses: Hivecs where RESET_V, else zero without the Security Extensions and RESET_VBAR_S
with them (R141). -/
theorem excVectorBase_resetRegisters (d : ResetDraw) (s : State) :
    excVectorBase (resetRegisters d s) true
      = if d.resetV then 0xFFFF0000#32 else if s.impl.secExt then d.resetVbarS else 0x00000000#32 := rfl

/-- Through a table that is ready a reset completes, at the table's base: the Reset vector is its first entry (R102). -/
theorem takeReset_of_tableReady {d : ResetDraw} {s : State}
    (h : tableReady s .securePL1 (excVectorBase (resetRegisters d s) true) = true) :
    takeReset d s = .next { resetRegisters d s with pc := excVectorBase (resetRegisters d s) true } := by
  have hvec := tableVector_ready (e := .reset) (o := 0x00#32) h
  simp only [takeReset, offPL1, hvec, BitVec.add_zero]

/-- After the registers are reset the state is Secure (R15). -/
theorem resetRegisters_isSecure (d : ResetDraw) (s : State) : (resetRegisters d s).isSecure = true := by
  simp [State.isSecure]

/-- Settles O8. -/
theorem resetEntersSupervisorAtTheResetVector : Obligations.ResetEntersSupervisorAtTheResetVector := by
  rintro s d rest base hi rfl hready
  have hstep : step s = takeReset d { s with inputs := rest } := by simp only [step, hi, applyInput]
  rw [← excVectorBase_resetRegisters d { s with inputs := rest }] at hready ⊢
  refine ⟨_, hstep.trans (takeReset_of_tableReady hready), rfl, resetRegisters_isSecure d { s with inputs := rest },
    rfl, rfl, rfl, rfl, rfl, rfl, rfl, rfl, fun r x => ?_⟩
  exact congrArg (Memory.read · x) (resetRegisters_mem d { s with inputs := rest } r)

/-- Settles O9. -/
theorem resetStateAsTheSpecSays : Obligations.ResetStateAsTheSpecSays := by
  unfold Obligations.ResetStateAsTheSpecSays
  exact ⟨rfl, rfl, rfl, rfl, rfl, rfl, rfl⟩

/-! ### The layout of the status word (R16) -/

@[simp] theorem jtOfISet_isetOfJT (j t : Bool) : jtOfISet (isetOfJT j t) = (j, t) := by
  cases j <;> cases t <;> rfl

@[simp] theorem isetOfJT_jtOfISet (i : ISet) : isetOfJT (jtOfISet i).1 (jtOfISet i).2 = i := by
  cases i <;> rfl

theorem jtOfISet_fst_iff (i : ISet) : (jtOfISet i).1 = true ↔ i = .jazelle ∨ i = .thumbEE := by
  cases i <;> simp [jtOfISet]

theorem jtOfISet_snd_iff (i : ISet) : (jtOfISet i).2 = true ↔ i = .thumb ∨ i = .thumbEE := by
  cases i <;> simp [jtOfISet]

/-- The fields of the word `w` are the parts of the status register `p`, each where R16 puts it. -/
structure HasLayout (w : Word) (p : PSR) : Prop where
  n : w.getLsbD 31 = p.n
  z : w.getLsbD 30 = p.z
  c : w.getLsbD 29 = p.c
  v : w.getLsbD 28 = p.v
  q : w.getLsbD 27 = p.q
  itLow : w.extractLsb' 25 2 = p.it.extractLsb' 0 2
  j : w.getLsbD 24 = (jtOfISet p.iset).1
  res : w.extractLsb' 20 4 = p.res
  ge : w.extractLsb' 16 4 = p.ge
  itHigh : w.extractLsb' 10 6 = p.it.extractLsb' 2 6
  e : w.getLsbD 9 = p.e
  a : w.getLsbD 8 = p.masks.a
  i : w.getLsbD 7 = p.masks.i
  f : w.getLsbD 6 = p.masks.f
  t : w.getLsbD 5 = (jtOfISet p.iset).2
  mode : w.extractLsb' 0 5 = p.mode.bits

/-- Each piece to the right of a field moves it down by the piece's width, which is why the fields stand where R16 has
them. -/
theorem psrWord_hasLayout (p : PSR) : HasLayout (psrWord p) p := by
  constructor
  case itLow | res | ge | itHigh | mode =>
    simp (disch := decide) only [psrWord, BitVec.extractLsb'_append_eq_of_le, BitVec.extractLsb'_append_eq_of_add_le]
    simp
  all_goals
    simp only [psrWord, BitVec.getLsbD_append]
    simp

theorem ofBool_getLsbD {w : Nat} (x : BitVec w) (i : Nat) : BitVec.ofBool (x.getLsbD i) = x.extractLsb' i 1 := by
  ext k hk
  obtain rfl : k = 0 := by omega
  simp

/-- Cut into the fields of R16 and put together again, a word is as it was. -/
theorem HasLayout.psrWord_eq {w : Word} {p : PSR} (h : HasLayout w p) : psrWord p = w := by
  simp only [psrWord, ← h.n, ← h.z, ← h.c, ← h.v, ← h.q, ← h.itLow, ← h.j, ← h.res, ← h.ge, ← h.itHigh, ← h.e, ← h.a,
    ← h.i, ← h.f, ← h.t, ← h.mode, ofBool_getLsbD]
  simp (disch := decide) only [BitVec.extractLsb'_append_extractLsb'_eq_extractLsb']
  exact BitVec.extractLsb'_eq_self

/-- The IT bits, stored in two pieces, put together again. -/
theorem it_append (it : BitVec 8) : it.extractLsb' 2 6 ++ it.extractLsb' 0 2 = it := by
  rw [BitVec.extractLsb'_append_extractLsb'_eq_extractLsb' (show 2 = 0 + 2 from rfl)]
  exact BitVec.extractLsb'_eq_self

/-- A word whose fields are the parts of `p` is read as `p`. -/
theorem HasLayout.psrOfWord_eq {w : Word} {p : PSR} (h : HasLayout w p) : psrOfWord w = some p := by
  simp only [psrOfWord, h.n, h.z, h.c, h.v, h.q, h.itLow, h.j, h.res, h.ge, h.itHigh, h.e, h.a, h.i, h.f, h.t, h.mode,
    it_append, isetOfJT_jtOfISet, Mode.ofBits_bits, Option.map_some]

theorem hasLayout_of_psrOfWord {w : Word} {p : PSR} (h : psrOfWord w = some p) : HasLayout w p := by
  obtain ⟨m, hm, rfl⟩ := Option.map_eq_some_iff.1 h
  constructor
  case itLow => exact BitVec.extractLsb'_append_eq_right.symm
  case itHigh => exact BitVec.extractLsb'_append_eq_left.symm
  case j | t => rw [jtOfISet_isetOfJT]
  case mode => exact (Mode.bits_of_ofBits hm).symm
  all_goals rfl

/-- Settles O4: a word is the word of `p`, and is read as `p`, where its fields are the parts of `p`. -/
theorem statusWordRoundTrip : Obligations.StatusWordRoundTrip := by
  refine ⟨fun p => (psrWord_hasLayout p).psrOfWord_eq, fun w p h => (hasLayout_of_psrOfWord h).psrWord_eq, ?_⟩
  rintro p w rfl
  have h := psrWord_hasLayout p
  refine ⟨h.n, h.z, h.c, h.v, h.q, h.itLow, h.itHigh, h.res, h.ge, h.e, h.a, h.i, h.f, ?_, ?_, h.mode⟩
  · rw [h.j, jtOfISet_fst_iff]
  · rw [h.t, jtOfISet_snd_iff]

end Sys2Proof.Machine

/-! # Memory: what a step stores, vector tables, SRS; the instruction at the pc -/

namespace Sys2Proof.Machine

/-! ### Every byte a step changes is recorded (R53) -/

/-- From `s` to `t` nothing leaves the record of stores, and every byte whose value differs is in it. -/
structure StoresRecorded (s t : State) : Prop where
  stored : ∀ p ∈ s.stored, p ∈ t.stored
  changed : ∀ (r : Regime) (x : Word), (t.mem r).read x = (s.mem r).read x ∨ (r, x) ∈ t.stored

theorem StoresRecorded.of_mem_eq {s t : State} (mem : ∀ r, t.mem r = s.mem r) (stored : t.stored = s.stored) :
    StoresRecorded s t :=
  ⟨fun _ hp => stored ▸ hp, fun r x => .inl (by rw [mem r])⟩

theorem ExecuteKeeps.storesRecorded {c : Prop} {s t : State} (h : ExecuteKeeps c s t) : StoresRecorded s t :=
  ⟨h.stored, h.changed⟩

theorem takeException_mem {e : Exc} {ctx : Ctx} {s t : State} (h : takeException e ctx s = .next t) (r : Regime) :
    t.mem r = s.mem r := by
  obtain ⟨tgt, vec, _, _, rfl⟩ := takeException_next h
  exact enter_mem e ctx tgt vec s r

theorem takeException_stored {e : Exc} {ctx : Ctx} {s t : State} (h : takeException e ctx s = .next t) :
    t.stored = s.stored := by
  obtain ⟨tgt, vec, _, _, rfl⟩ := takeException_next h
  rfl

theorem takeReset_mem {d : ResetDraw} {s t : State} (h : takeReset d s = .next t) (r : Regime) :
    t.mem r = s.mem r := by
  obtain ⟨_, rfl⟩ := takeReset_next h
  exact resetRegisters_mem d s r

theorem takeReset_stored {d : ResetDraw} {s t : State} (h : takeReset d s = .next t) : t.stored = s.stored := by
  obtain ⟨_, rfl⟩ := takeReset_next h
  rfl

/-- The address of a byte of the second of two adjacent words, counted from the first word. -/
theorem add_four_add_ofNat (a : Word) (k : Nat) : a + 4#32 + BitVec.ofNat 32 k = a + BitVec.ofNat 32 (k + 4) := by
  rw [BitVec.add_assoc, BitVec.add_comm 4#32, ← BitVec.ofNat_add]

/-- SRS records its eight bytes, and no others. -/
theorem mem_storeReturnState_stored {m : ExcMode} {stack : Mode} {a : Word} {back : Option Word} {s : State}
    {p : Regime × Word} : p ∈ (storeReturnState m stack a back s).stored ↔
      p ∈ s.stored ∨ ∃ k, k < 8 ∧ p = (s.regime, a + BitVec.ofNat 32 k) := by
  rw [storeReturnState_stored, mem_markStored, mem_markStored, or_assoc]
  refine or_congr_right ⟨?_, ?_⟩
  · rintro (⟨k, hk, rfl⟩ | ⟨k, hk, rfl⟩)
    · exact ⟨k, by omega, rfl⟩
    · exact ⟨k + 4, by omega, by rw [add_four_add_ofNat]⟩
  · rintro ⟨k, hk, rfl⟩
    by_cases h : k < 4
    · exact .inl ⟨k, h, rfl⟩
    · exact .inr ⟨k - 4, by omega, by rw [add_four_add_ofNat, Nat.sub_add_cancel (by omega)]⟩

/-- SRS changes its eight bytes, and no others. -/
theorem storeReturnState_sameMemoryOutside (m : ExcMode) (stack : Mode) (a : Word) (back : Option Word) (s : State) :
    SameMemoryOutside s.regime a 8 s (storeReturnState m stack a back s) := by
  intro r x hx
  by_cases hr : r = s.regime
  · subst hr
    have hx' := hx.resolve_left (not_not_intro rfl)
    rw [storeReturnState_mem, Memory.writeWord, Memory.writeWord, Memory.read_writeBytes_other,
      Memory.read_writeBytes_other] <;> intro k hk <;> rw [bytesOfWord_length] at hk
    · exact hx' k (by omega)
    · rw [add_four_add_ofNat]
      exact hx' (k + 4) (by omega)
  · rw [storeReturnState_mem_other m stack a back s hr]

theorem storeReturnState_storesRecorded (m : ExcMode) (stack : Mode) (a : Word) (back : Option Word) (s : State) :
    StoresRecorded s (storeReturnState m stack a back s) where
  stored _ hp := mem_storeReturnState_stored.2 (.inl hp)
  changed r x := by
    by_cases hx : r ≠ s.regime ∨ ∀ k : Nat, k < 8 → x ≠ a + BitVec.ofNat 32 k
    · exact .inl (storeReturnState_sameMemoryOutside m stack a back s r x hx)
    · push Not at hx
      obtain ⟨rfl, k, hk, rfl⟩ := hx
      exact .inr (mem_storeReturnState_stored.2 (.inr ⟨k, hk, rfl⟩))

theorem MachineMoves.storesRecorded {s t : State} (h : MachineMoves s t) : StoresRecorded s t := by
  rcases h with (⟨e, ctx, he⟩ | ⟨n, rfl⟩ | ⟨n, m, stack, a, back, _, _, rfl⟩ | ⟨n, masks, k, _, _, rfl⟩) |
    ⟨addr, psr, hret⟩
  · exact .of_mem_eq (takeException_mem he) (takeException_stored he)
  · exact .of_mem_eq (advance_mem n s) rfl
  · obtain ⟨stored, changed⟩ := storeReturnState_storesRecorded m stack a back s
    exact ⟨stored, changed⟩
  · exact .of_mem_eq (fun _ => rfl) rfl
  · obtain ⟨_, rfl⟩ := exceptionReturn_next hret
    exact .of_mem_eq (fun _ => rfl) rfl

theorem step_storesRecorded {s t : State} (h : step s = .next t) : StoresRecorded s t := by
  rcases step_next h with ⟨xs, n, hm⟩ | ⟨p, rest, _, rfl⟩ | ⟨d, rest, _, hr⟩ | ⟨ws, next, rest, u, _, hu, rfl⟩
  · obtain ⟨stored, changed⟩ := hm.storesRecorded
    exact ⟨stored, changed⟩
  · exact .of_mem_eq (fun _ => rfl) rfl
  · exact .of_mem_eq (fun r => takeReset_mem hr r) (takeReset_stored hr :)
  · obtain ⟨stored, changed⟩ := (applyWrites_ok hu).storesRecorded
    exact ⟨stored, changed⟩

/-- Settles O58. -/
theorem storedBytesAreRecorded : Obligations.StoredBytesAreRecorded := by
  intro s t h
  have recorded := step_storesRecorded h
  exact ⟨recorded.stored, fun r x hne => (recorded.changed r x).resolve_left hne⟩

/-! ### Vectors are as at launch (R53) -/

/-- A byte that is not recorded as stored to has not changed, and was not recorded before either. -/
theorem AsLaunched.of_storesRecorded {l : Regime → Memory} {s t : State} (hs : AsLaunched l s)
    (h : StoresRecorded s t) : AsLaunched l t := by
  intro r x hx
  have same : (t.mem r).read x = (s.mem r).read x := (h.changed r x).resolve_right hx
  exact same.trans (hs r x fun hp => hx (h.stored _ hp))

/-- No byte of a table that is not stored to is in the record of stores. -/
theorem not_mem_stored_of_tableStored {s : State} {r : Regime} {base x : Word} (h : tableStored s r base = false)
    (hx : (x - base).toNat < 32) : (r, x) ∉ s.stored := by
  intro hp
  exact List.any_eq_false.1 h _ hp (by simpa using hx)

theorem tableReady_iff {s : State} {r : Regime} {base : Word} :
    tableReady s r base = true ↔ base.extractLsb' 0 5 = 0#5 ∧ tableStored s r base = false := by
  simp [tableReady, baseAligned]

/-- The 32 bytes of a table that entry or reset may use read as at launch. -/
theorem AsLaunched.read_of_tableReady {l : Regime → Memory} {s : State} (hs : AsLaunched l s) {r : Regime}
    {base x : Word} (h : tableReady s r base = true) (hx : (x - base).toNat < 32) :
    (s.mem r).read x = (l r).read x :=
  hs r x (not_mem_stored_of_tableStored (tableReady_iff.1 h).2 hx)

/-- The table an exception was taken through was ready (R43, R53). -/
theorem tableReady_of_takeException {e : Exc} {ctx : Ctx} {s t : State} {tgt : ExcMode}
    (htgt : targetMode e s = .ok tgt) (hu : UsesTable e tgt s) (h : takeException e ctx s = .next t) :
    tableReady s (tableUsed tgt s).1 (tableUsed tgt s).2 = true := by
  obtain ⟨tgt', vec, htgt', hvec, _⟩ := takeException_next h
  obtain rfl : tgt = tgt' := Except.ok.inj (htgt.symm.trans htgt')
  obtain ⟨o, ho⟩ := vectorAddress_of_usesTable htgt hu
  exact (tableVector_ok (ho.symm.trans hvec)).1

/-- Settles O59: `AsLaunched` is kept by every step, and no table that entry or reset goes through has been stored
to. -/
theorem vectorsAreFixedAtLaunch : Obligations.VectorsAreFixedAtLaunch := by
  refine fun l => ⟨fun s t hs h => hs.of_storesRecorded (step_storesRecorded h), ?_, ?_⟩
  · intro e ctx s t tgt hs htgt hu h x hx
    rw [takeException_mem h]
    exact hs.read_of_tableReady (tableReady_of_takeException htgt hu h) hx
  · rintro d s t base hs h rfl x hx
    rw [takeReset_mem h]
    exact hs.read_of_tableReady (takeReset_next h).1 hx

/-! ### Entry and reset through a table that is not ready are refused (R43, R53) -/

theorem tableVector_unaligned {s : State} {r : Regime} {base : Word} (e : Exc) (o : Word)
    (h : base.extractLsb' 0 5 ≠ 0#5) : tableVector s r e base (some o) = .error (.unalignedVectorBase base) := by
  simp [tableVector, baseAligned, h]

theorem tableVector_stored {s : State} {r : Regime} {base : Word} (e : Exc) (o : Word)
    (h : base.extractLsb' 0 5 = 0#5) (hs : tableStored s r base = true) :
    tableVector s r e base (some o) = .error (.vectorTableStored base) := by
  simp [tableVector, baseAligned, h, hs]

/-- An exception that uses a table is refused for the reason the table gives. -/
theorem takeException_refused {e : Exc} {s : State} {tgt : ExcMode} {x : Refusal} (ctx : Ctx)
    (htgt : targetMode e s = .ok tgt) (hu : UsesTable e tgt s)
    (h : ∀ o, tableVector s (tableUsed tgt s).1 e (tableUsed tgt s).2 (some o) = .error x) :
    takeException e ctx s = .refused x := by
  obtain ⟨o, ho⟩ := vectorAddress_of_usesTable htgt hu
  simp only [takeException, htgt, ho, h]

/-- A reset is refused for the reason its table gives. -/
theorem takeReset_refused {d : ResetDraw} {s : State} {base : Word} {x : Refusal}
    (hb : base = if d.resetV then 0xFFFF0000#32 else if s.impl.secExt then d.resetVbarS else 0x00000000#32)
    (h : ∀ o, tableVector s .securePL1 .reset base (some o) = .error x) : takeReset d s = .refused x := by
  subst hb
  simp only [takeReset, offPL1, excVectorBase_resetRegisters, h]

/-- Settles O57. -/
theorem entryThroughAStoredTableIsRefused : Obligations.EntryThroughAStoredTableIsRefused :=
  ⟨fun e ctx _ _ htgt hu ha hs => takeException_refused ctx htgt hu fun o => tableVector_stored e o ha hs,
    fun _ _ _ hb ha hs => takeReset_refused hb fun o => tableVector_stored .reset o ha hs⟩

/-! ### The arithmetic of a vector (R43) -/

/-- The seven entries of the Hyp table that the parameter of SVC in Hyp mode can name are words of it (R103). -/
theorem svcFromHyp_offset_bounds : ∀ k : Fin 7,
    (BitVec.ofNat 32 (4 * (k.val + 1))).toNat < 32 ∧ (BitVec.ofNat 32 (4 * (k.val + 1))).toNat % 4 = 0 := by
  decide

/-- Every offset of every vector table is a word of the 32 bytes of a table (R97, R98, R102). -/
theorem vector_offset_bounds {e : Exc} {o : Word}
    (h : offPL1 e = some o ∨ offMon e = some o ∨ ∃ c f, offHyp c e f = some o) :
    o.toNat < 32 ∧ o.toNat % 4 = 0 := by
  rcases h with h | h | ⟨c, f, h⟩
  · cases e <;> cases h <;> decide
  · cases e <;> cases h <;> decide
  · cases e with
    | supervisorCall =>
      cases f with
      | false => cases h; decide
      | true =>
        obtain ⟨k, _, rfl⟩ := Option.map_eq_some_iff.1 h
        exact svcFromHyp_offset_bounds k
    | _ => cases f <;> cases h <;> decide

theorem toNat_mod_32_of_aligned {base : Word} (h : base.extractLsb' 0 5 = 0#5) : base.toNat % 32 = 0 := by
  simpa using congrArg BitVec.toNat h

/-- Settles O13: the base is a multiple of 32 and the offset is below 32, so that no carry leaves the low five bits. -/
theorem vectorArithmetic : Obligations.VectorArithmetic := by
  refine ⟨fun e ctx s tgt htgt hu ha => ?_, fun d s hsec hv ha => ?_, fun s r e base o ha hs ho => ?_⟩
  · exact takeException_refused ctx htgt hu fun o => tableVector_unaligned e o ha
  · exact takeReset_refused (by simp [hsec, hv]) fun o => tableVector_unaligned .reset o ha
  · obtain ⟨hlt, hmod⟩ := vector_offset_bounds ho
    have hbase := toNat_mod_32_of_aligned ha
    have hsum : (base + o).toNat = base.toNat + o.toNat := BitVec.toNat_add_of_lt (by omega)
    exact ⟨tableVector_ready (tableReady_iff.2 ⟨ha, hs⟩), hsum, by omega⟩

/-! ### What an instruction writes of memory (R41, R53) -/

/-- An instruction leaves memory as it was, or makes the two stores of SRS, outside the vector tables. -/
theorem exec_mem {i : Instr} {s t : State} (h : exec i s = .next t) :
    (∀ r, t.mem r = s.mem r) ∨ ∃ m stack a back, hitsVectorTable s s.regime a 8 = false ∧
      ∀ r, t.mem r = (storeReturnState m stack a back s).mem r := by
  rcases exec_next h with ⟨e, ctx, he⟩ | ⟨n, rfl⟩ | ⟨n, m, stack, a, back, _, ha, rfl⟩ | ⟨n, masks, k, _, _, rfl⟩
  · exact .inl (takeException_mem he)
  · exact .inl (advance_mem n s)
  · exact .inr ⟨m, stack, a, back, ha, advance_mem n _⟩
  · exact .inl (advance_mem n _)

/-- Settles O55. -/
theorem instructionsWriteOwnAddressSpaceOnly : Obligations.InstructionsWriteOwnAddressSpaceOnly := by
  intro i s t r h hr
  rcases exec_mem h with hmem | ⟨m, stack, a, back, _, hmem⟩
  · exact hmem r
  · exact (hmem r).trans (storeReturnState_mem_other m stack a back s hr)

/-- A byte of a vector table is none of the bytes at an address that hits no vector table. -/
theorem ne_of_hitsVectorTable {s : State} {r : Regime} {a base x : Word} {n : Nat}
    (h : hitsVectorTable s r a n = false) (hb : base ∈ tableBases s r) (hx : (x - base).toNat < 32) (k : Nat)
    (hk : k < n) : x ≠ a + BitVec.ofNat 32 k := by
  rintro rfl
  have miss := List.any_eq_false.1 (Bool.eq_false_of_not_eq_true (List.any_eq_false.1 h base hb)) k
    (List.mem_range.2 hk)
  exact miss (decide_eq_true hx)

/-- Settles O56: the eight bytes of SRS are the only ones an instruction changes, and they are in no vector table. -/
theorem vectorTablesAreNotWritten : Obligations.VectorTablesAreNotWritten := by
  intro i s t base x h hb hx
  rcases exec_mem h with hmem | ⟨m, stack, a, back, ha, hmem⟩
  · rw [hmem]
  · rw [hmem]
    exact storeReturnState_sameMemoryOutside m stack a back s s.regime x (.inr (ne_of_hitsVectorTable ha hb hx))

/-! ### SRS, branch by branch (R70) -/

theorem storeReturn_of_excMode_none {s : State} (h : s.cpsr.mode.excMode = none) (n : Nat) (p u w : Bool)
    (mode : BitVec 5) : storeReturn n p u w mode s = .refused .srsNoReturnState := by
  simp only [storeReturn, h]

theorem storeReturn_of_hyp {s : State} (h : s.cpsr.mode.excMode = some .hyp) (n : Nat) (p u w : Bool)
    (mode : BitVec 5) : storeReturn n p u w mode s = takeUndefined s := by
  simp only [storeReturn, h]

section pl1Handler

variable {s : State} {m : ExcMode} (hm : s.cpsr.mode.excMode = some m) (hne : m ≠ .hyp)
include hm hne

theorem storeReturn_of_srsStackMode_none {mode : BitVec 5} (h : srsStackMode s mode = none) (n : Nat) (p u w : Bool) :
    storeReturn n p u w mode s = .refused (.srsStackMode mode) := by
  cases m with
  | hyp => exact absurd rfl hne
  | supervisor | undefined | abort | irq | fiq | monitor => simp only [storeReturn, hm, h]

theorem storeReturn_of_srsStackMode {mode : BitVec 5} {stack : Mode} (h : srsStackMode s mode = some stack) (n : Nat)
    (p u w : Bool) : storeReturn n p u w mode s = srsStore n p u w m stack s := by
  cases m with
  | hyp => exact absurd rfl hne
  | supervisor | undefined | abort | irq | fiq | monitor => simp only [storeReturn, hm, h]

end pl1Handler

/-- At an address that is not word-aligned SRS may abort; where it does not, it goes on as at an aligned one (R47). -/
theorem srsStore_cases (n : Nat) (p u w : Bool) (m : ExcMode) (stack : Mode) (s : State) :
    ((srsAddress p u (s.spOf stack)).extractLsb' 0 2 ≠ 0#2 ∧
      srsStore n p u w m stack s = takeException .dataAbort (ctxAtPc s) s) ∨
    srsStore n p u w m stack s =
      if hitsVectorTable s s.regime (srsAddress p u (s.spOf stack)) 8 then
        .refused (.vectorTableStore (srsAddress p u (s.spOf stack)))
      else .next (advance n (storeReturnState m stack (srsAddress p u (s.spOf stack))
        (if w then some (srsWriteBack u (s.spOf stack)) else none) s)) := by
  by_cases h : (srsAddress p u (s.spOf stack)).extractLsb' 0 2 ≠ 0#2 ∧
      Config.misalignedAborts (srsAddress p u (s.spOf stack)) s = true
  · exact .inl ⟨h.1, if_pos h⟩
  · exact .inr (if_neg h)

/-! ### What the stores of SRS leave (R70) -/

theorem spOf_setSp_other (s : State) {m k : Mode} (w : Word) (h : k.excMode ≠ m.excMode) :
    (s.setSp m w).spOf k = s.spOf k := by
  unfold State.setSp State.spOf
  cases hm : m.excMode with
  | none =>
    cases hk : k.excMode with
    | none => exact absurd (hk.trans hm.symm) h
    | some y => rfl
  | some x =>
    cases hk : k.excMode with
    | none => rfl
    | some y =>
      have hne : y ≠ x := fun hc => h (by rw [hk, hm, hc])
      exact Bank.get_set_other s.sp w hne

@[simp] theorem store_spOf (s : State) (r : Regime) (a : Word) (bs : List Byte) (k : Mode) :
    (s.store r a bs).spOf k = s.spOf k := by
  simp only [State.spOf, store_sp, store_spUsr]

@[simp] theorem advance_spOf (n : Nat) (s : State) (k : Mode) : (advance n s).spOf k = s.spOf k := rfl

theorem storeReturnState_spOf_same (m : ExcMode) (stack : Mode) (a : Word) (back : Option Word) (s : State) :
    (storeReturnState m stack a back s).spOf stack = back.getD (s.spOf stack) := by
  cases back <;> simp [storeReturnState]

theorem storeReturnState_spOf_other (m : ExcMode) {stack k : Mode} (a : Word) (back : Option Word) (s : State)
    (h : k.excMode ≠ stack.excMode) : (storeReturnState m stack a back s).spOf k = s.spOf k := by
  cases back <;> simp [storeReturnState, spOf_setSp_other _ _ h]

/-- No byte of a word is a byte of the word after it. -/
theorem add_ofNat_ne_add_four (a : Word) {j k : Nat} (hj : j < 4) (hk : k < 4) :
    a + BitVec.ofNat 32 j ≠ a + 4#32 + BitVec.ofNat 32 k := by
  rw [add_four_add_ofNat, Ne, BitVec.add_right_inj]
  intro h
  have := congrArg BitVec.toNat h
  simp only [BitVec.toNat_ofNat] at this
  omega

theorem Memory.readBytes_writeWord_same (m : Memory) (o : Endian) (a w : Word) :
    (m.writeWord o a w).readBytes a 4 = .ok (bytesOfWord o w) := by
  have h := Memory.readBytes_writeBytes_same m a (bytesOfWord o w) (bytesOfWord_length o w).le
  rwa [bytesOfWord_length] at h

/-- Storing the next word leaves a word as it was. -/
theorem Memory.readBytes_writeWord_next (m : Memory) (o : Endian) (a w : Word) :
    (m.writeWord o (a + 4#32) w).readBytes a 4 = m.readBytes a 4 :=
  Memory.readBytes_writeBytes_other m _ a _ 4 fun _ _ hj hk =>
    add_ofNat_ne_add_four a hj (bytesOfWord_length o w ▸ hk)

/-- At any address the stores and the write-back of SRS, and the advance of the pc, are what R70 says. -/
theorem storeReturnState_returnStateStored (n : Nat) (m : ExcMode) (stack : Mode) (a : Word) (back : Option Word)
    (s : State) : ReturnStateStored n m stack a back s (advance n (storeReturnState m stack a back s)) := by
  obtain ⟨b, u, hframe⟩ := storeReturnState_frame m stack a back s
  constructor
  case link =>
    rw [advance_mem, storeReturnState_mem, Memory.readBytes_writeWord_next, Memory.readBytes_writeWord_same]
  case spsr => rw [advance_mem, storeReturnState_mem, Memory.readBytes_writeWord_same]
  case back => exact storeReturnState_spOf_same m stack a back s
  case otherStacks => exact fun k hk => storeReturnState_spOf_other m a back s hk
  case control => exact storeReturnState_sameControl m stack a back s
  case memory =>
    intro r x hx
    rw [advance_mem, storeReturnState_sameMemoryOutside m stack a back s r x hx]
  case stored => exact fun p => mem_storeReturnState_stored
  all_goals simp [hframe, advance]

theorem excMode_of_pl1 {k : Mode} (hpl : k.pl = .pl1) (hsys : k ≠ .system) : ∃ m, k.excMode = some m ∧ m ≠ .hyp := by
  cases k with
  | user | hyp => cases hpl
  | system => exact absurd rfl hsys
  | fiq | irq | supervisor | monitor | abort | undefined => exact ⟨_, rfl, by decide⟩

/-- Settles O39. -/
theorem srsStopsAndTraps : Obligations.SrsStopsAndTraps := by
  intro s i p u w mode hi
  rw [exec_of_isSrs hi]
  refine ⟨fun hmode => ?_, fun hmode => ?_, fun hpl hsys => ?_⟩
  · exact storeReturn_of_excMode_none (by rcases hmode with h | h <;> rw [h] <;> rfl) _ p u w mode
  · exact storeReturn_of_hyp (by rw [hmode]; rfl) _ p u w mode
  · obtain ⟨m, hm, hne⟩ := excMode_of_pl1 hpl hsys
    refine ⟨fun hstack => storeReturn_of_srsStackMode_none hm hne hstack _ p u w, fun stack hstack ha hhits => ?_⟩
    rw [storeReturn_of_srsStackMode hm hne hstack]
    rcases srsStore_cases (lengthOf s.impl.iLen i) p u w m stack s with ⟨hmis, _⟩ | h
    · exact absurd ha hmis
    · rw [h, if_pos hhits]

/-- Settles O38. -/
theorem srsMisalignedAbortsOrStores : Obligations.SrsMisalignedAbortsOrStores := by
  intro s m i p u w mode stack hi hm hne hstack _
  rw [exec_of_isSrs hi, storeReturn_of_srsStackMode hm hne hstack]
  rcases srsStore_cases (lengthOf s.impl.iLen i) p u w m stack s with ⟨_, h⟩ | h <;> rw [h]
  · exact ⟨fun _ => .inl rfl, fun _ => .inl rfl⟩
  · refine ⟨fun hhits => .inr (if_pos hhits), fun hhits => .inr ⟨_, if_neg (by simp [hhits]), ?_⟩⟩
    exact storeReturnState_returnStateStored _ m stack _ _ s

/-! ### The decoder on the code of an instruction (R57) -/

theorem append_eq_iff {a b : Nat} (x : BitVec a) (y : BitVec b) (v : BitVec (a + b)) :
    x ++ y = v ↔ x = v.extractLsb' b a ∧ y = v.extractLsb' 0 b := by
  constructor
  · rintro rfl
    exact ⟨BitVec.extractLsb'_append_eq_left.symm, BitVec.extractLsb'_append_eq_right.symm⟩
  · rintro ⟨rfl, rfl⟩
    rw [BitVec.extractLsb'_append_extractLsb'_eq_extractLsb' (Nat.zero_add b).symm]
    exact BitVec.extractLsb'_eq_self



/-- The two parts of a word, put together again. -/
theorem append_extractLsb' {a b : Nat} (v : BitVec (a + b)) : v.extractLsb' b a ++ v.extractLsb' 0 b = v :=
  (append_eq_iff _ _ v).2 ⟨rfl, rfl⟩

/-- The bits of `w` that the mask selects are those of `v`: the test that each row of R57 makes. -/
def maskedEq {n : Nat} (w mask v : BitVec n) : Bool := w &&& mask == v

theorem and_eq_iff_maskedEq {n : Nat} (w mask v : BitVec n) : w &&& mask = v ↔ maskedEq w mask v = true := by
  simp [maskedEq]

/-- Two pieces put together pass the test where each piece passes its part of it. -/
theorem maskedEq_append {a b : Nat} (x : BitVec a) (y : BitVec b) (mask v : BitVec (a + b)) :
    maskedEq (x ++ y) mask v = (maskedEq x (mask.extractLsb' b a) (v.extractLsb' b a) &&
      maskedEq y (mask.extractLsb' 0 b) (v.extractLsb' 0 b)) := by
  have hmask := append_extractLsb' mask
  rw [Bool.eq_iff_iff, Bool.and_eq_true, ← and_eq_iff_maskedEq, ← and_eq_iff_maskedEq, ← and_eq_iff_maskedEq,
    ← append_eq_iff, ← BitVec.and_append, hmask]



/-! Each row of R57: the rows before it do not match its code, it matches itself, and its fields are read back. -/

theorem decodeArm_svcA1 {cond : BitVec 4} (h : cond ≠ 0xF#4) (imm24 : BitVec 24) :
    decodeArm (cond ++ 0xF#4 ++ imm24) = .ok (.svcA1 cond imm24) := by
  rw [decodeArm, if_pos]
  · simp (disch := decide) only [BitVec.extractLsb'_append_eq_of_le, BitVec.extractLsb'_append_eq_of_add_le]
    simp
  · simp only [and_eq_iff_maskedEq, maskedEq_append]
    simp (disch := decide) only [BitVec.extractLsb'_append_eq_of_le]
    simp [maskedEq, h]

theorem decodeArm_smcA1 {cond : BitVec 4} (h : cond ≠ 0xF#4) (imm4 : BitVec 4) :
    decodeArm (cond ++ 0x160007#24 ++ imm4) = .ok (.smcA1 cond imm4) := by
  rw [decodeArm, if_neg, if_pos]
  · simp (disch := decide) only [BitVec.extractLsb'_append_eq_of_le, BitVec.extractLsb'_append_eq_of_add_le]
    simp
  · simp only [and_eq_iff_maskedEq, maskedEq_append]
    simp (disch := decide) only [BitVec.extractLsb'_append_eq_of_le]
    simp [maskedEq, h]
  · simp only [and_eq_iff_maskedEq, maskedEq_append]
    simp [maskedEq]

theorem decodeArm_hvcA1 (imm16 : BitVec 16) :
    decodeArm (0xE14#12 ++ imm16.extractLsb' 4 12 ++ 0x7#4 ++ imm16.extractLsb' 0 4) = .ok (.hvcA1 imm16) := by
  rw [decodeArm, if_neg, if_neg, if_pos]
  · simp (disch := decide) only [BitVec.extractLsb'_append_eq_of_le, BitVec.extractLsb'_append_eq_of_add_le]
    simpa using append_extractLsb' (a := 12) (b := 4) imm16
  all_goals
    simp only [and_eq_iff_maskedEq, maskedEq_append]
    simp [maskedEq]

theorem decodeArm_srsA1 (p u w : Bool) (mode : BitVec 5) :
    decodeArm (0b1111100#7 ++ BitVec.ofBool p ++ BitVec.ofBool u ++ 1#1 ++ BitVec.ofBool w
      ++ 0b0110100000101000#16 ++ mode) = .ok (.srsA1 p u w mode) := by
  rw [decodeArm, if_neg, if_neg, if_neg, if_pos]
  · simp only [BitVec.getLsbD_append]
    simp (disch := decide) only [BitVec.extractLsb'_append_eq_of_add_le]
    simp
  all_goals
    simp only [and_eq_iff_maskedEq, maskedEq_append]
    simp [maskedEq]

theorem decodeArm_cpsA1 (imod : BitVec 2) (m a i f : Bool) (mode : BitVec 5) :
    decodeArm (0b111100010000#12 ++ imod ++ BitVec.ofBool m ++ 0b00000000#8 ++ BitVec.ofBool a ++ BitVec.ofBool i
      ++ BitVec.ofBool f ++ 0#1 ++ mode) = .ok (.cpsA1 imod m a i f mode) := by
  rw [decodeArm, if_neg, if_neg, if_neg, if_neg, if_pos]
  · simp only [BitVec.getLsbD_append]
    simp (disch := decide) only [BitVec.extractLsb'_append_eq_of_le, BitVec.extractLsb'_append_eq_of_add_le]
    simp
  all_goals
    simp only [and_eq_iff_maskedEq, maskedEq_append]
    simp [maskedEq]

theorem decodeThumb16_svcT1 (imm8 : BitVec 8) :
    decodeThumb16 (0xDF#8 ++ imm8) = .ok (.svcT1 imm8) := by
  rw [decodeThumb16, if_pos]
  · rw [BitVec.extractLsb'_append_eq_right]
  all_goals
    simp only [and_eq_iff_maskedEq, maskedEq_append]
    simp [maskedEq]

theorem decodeThumb16_cpsT1 (im a i f : Bool) :
    decodeThumb16 (0b10110110011#11 ++ BitVec.ofBool im ++ 0#1 ++ BitVec.ofBool a ++ BitVec.ofBool i
      ++ BitVec.ofBool f) = .ok (.cpsT1 im a i f) := by
  rw [decodeThumb16, if_neg, if_pos]
  · simp only [BitVec.getLsbD_append]
    simp
  all_goals
    simp only [and_eq_iff_maskedEq, maskedEq_append]
    simp [maskedEq]

theorem decodeThumb32_smcT1 (imm4 : BitVec 4) :
    decodeThumb32 (0xF7F#12 ++ imm4) 0x8000#16 = .ok (.smcT1 imm4) := by
  rw [decodeThumb32, if_pos]
  · rw [BitVec.extractLsb'_append_eq_right]
  all_goals
    simp only [and_eq_iff_maskedEq, maskedEq_append]
    simp [maskedEq]

theorem decodeThumb32_hvcT1 (imm16 : BitVec 16) :
    decodeThumb32 (0xF7E#12 ++ imm16.extractLsb' 12 4)
      (0x8#4 ++ imm16.extractLsb' 0 12) = .ok (.hvcT1 imm16) := by
  rw [decodeThumb32, if_neg, if_pos]
  · rw [BitVec.extractLsb'_append_eq_right, BitVec.extractLsb'_append_eq_right, append_extractLsb']
  all_goals
    simp only [and_eq_iff_maskedEq, maskedEq_append]
    simp [maskedEq]

theorem decodeThumb32_srsT1 (w : Bool) (mode : BitVec 5) :
    decodeThumb32 (0b1110100000#10 ++ BitVec.ofBool w ++ 0b01101#5)
      (0b11000000000#11 ++ mode) = .ok (.srsT1 w mode) := by
  rw [decodeThumb32, if_neg, if_neg, if_pos]
  · simp only [BitVec.getLsbD_append]
    simp (disch := decide) only [BitVec.extractLsb'_append_eq_of_add_le]
    simp
  all_goals
    simp only [and_eq_iff_maskedEq, maskedEq_append]
    simp [maskedEq]

theorem decodeThumb32_srsT2 (w : Bool) (mode : BitVec 5) :
    decodeThumb32 (0b1110100110#10 ++ BitVec.ofBool w ++ 0b01101#5)
      (0b11000000000#11 ++ mode) = .ok (.srsT2 w mode) := by
  rw [decodeThumb32, if_neg, if_neg, if_neg, if_pos]
  · simp only [BitVec.getLsbD_append]
    simp (disch := decide) only [BitVec.extractLsb'_append_eq_of_add_le]
    simp
  all_goals
    simp only [and_eq_iff_maskedEq, maskedEq_append]
    simp [maskedEq]

theorem decodeThumb32_cpsT2 (imod : BitVec 2) (m a i f : Bool) (mode : BitVec 5) :
    decodeThumb32 0xF3AF#16
      (0b10000#5 ++ imod ++ BitVec.ofBool m ++ BitVec.ofBool a ++ BitVec.ofBool i ++ BitVec.ofBool f ++ mode)
      = .ok (.cpsT2 imod m a i f mode) := by
  rw [decodeThumb32, if_neg, if_neg, if_neg, if_neg, if_pos]
  · simp only [BitVec.getLsbD_append]
    simp (disch := decide) only [BitVec.extractLsb'_append_eq_of_le, BitVec.extractLsb'_append_eq_of_add_le]
    simp
  all_goals
    simp only [and_eq_iff_maskedEq, maskedEq_append]
    simp [maskedEq]

/-- The row tests on a code, the set and the length told apart by its constructor. -/
def decodeCode : Code → Except DecodeError Instr
  | .arm w => decodeArm w
  | .t16 h => decodeThumb16 h
  | .t32 h1 h2 => decodeThumb32 h1 h2

theorem decodeCode_encode {i : Instr} (h : i.wellFormed = true) : decodeCode (encode i) = .ok i := by
  cases i with
  | svcA1 cond imm24 => exact decodeArm_svcA1 (by simpa [Instr.wellFormed] using h) imm24
  | svcT1 imm8 => exact decodeThumb16_svcT1 imm8
  | smcA1 cond imm4 => exact decodeArm_smcA1 (by simpa [Instr.wellFormed] using h) imm4
  | smcT1 imm4 => exact decodeThumb32_smcT1 imm4
  | hvcA1 imm16 => exact decodeArm_hvcA1 imm16
  | hvcT1 imm16 => exact decodeThumb32_hvcT1 imm16
  | srsA1 p u w mode => exact decodeArm_srsA1 p u w mode
  | srsT1 w mode => exact decodeThumb32_srsT1 w mode
  | srsT2 w mode => exact decodeThumb32_srsT2 w mode
  | cpsA1 imod m a i f mode => exact decodeArm_cpsA1 imod m a i f mode
  | cpsT1 im a i f => exact decodeThumb16_cpsT1 im a i f
  | cpsT2 imod m a i f mode => exact decodeThumb32_cpsT2 imod m a i f mode

/-- The decoder reads a code from its bytes, in either byte order, whatever follows (R46, R57). -/
theorem decode_bytes {c : Code} (h : Laws.CodeShape.lengthShown c = true) (o : Endian) (rest : List Byte) :
    decode c.iset o (c.bytes o ++ rest) = (decodeCode c).map (·, rest) := by
  cases c with
  | arm w =>
    obtain ⟨b0, b1, b2, b3, hb, hw⟩ := bytesOfWord_cases o w
    simp only [Code.iset, Code.bytes, decode, decodeCode, hb, hw, List.cons_append, List.nil_append]
  | t16 h1 =>
    obtain ⟨b0, b1, hb, hw⟩ := bytesOfHalf_cases o h1
    have hshort : isThumb32 h1 = false := by simpa [Laws.CodeShape.lengthShown] using h
    simp [Code.iset, Code.bytes, decode, decodeCode, hb, hw, hshort]
  | t32 h1 h2 =>
    obtain ⟨b0, b1, hb, hw⟩ := bytesOfHalf_cases o h1
    obtain ⟨b2, b3, hb', hw'⟩ := bytesOfHalf_cases o h2
    have hlong : isThumb32 h1 = true := h
    simp [Code.iset, Code.bytes, decode, decodeCode, hb, hw, hb', hw', hlong]

theorem codeShape (i : Instr) : Laws.CodeShape.Statement i := by
  cases i with
  | svcA1 cond imm24 => exact Laws.CodeShape.svcA1 cond imm24
  | svcT1 imm8 => exact Laws.CodeShape.svcT1 imm8
  | smcA1 cond imm4 => exact Laws.CodeShape.smcA1 cond imm4
  | smcT1 imm4 => exact Laws.CodeShape.smcT1 imm4
  | hvcA1 imm16 => exact Laws.CodeShape.hvcA1 imm16
  | hvcT1 imm16 => exact Laws.CodeShape.hvcT1 imm16
  | srsA1 p u w mode => exact Laws.CodeShape.srsA1 p u w mode
  | srsT1 w mode => exact Laws.CodeShape.srsT1 w mode
  | srsT2 w mode => exact Laws.CodeShape.srsT2 w mode
  | cpsA1 imod m a i f mode => exact Laws.CodeShape.cpsA1 imod m a i f mode
  | cpsT1 im a i f => exact Laws.CodeShape.cpsT1 im a i f
  | cpsT2 imod m a i f mode => exact Laws.CodeShape.cpsT2 imod m a i f mode

/-- The decoder gives a well-formed instruction back from the bytes of its code (R57). -/
theorem decode_bytes_encode {i : Instr} (h : i.wellFormed = true) (o : Endian) (rest : List Byte) :
    decode i.iset o ((encode i).bytes o ++ rest) = .ok (i, rest) := by
  obtain ⟨hiset, _, hlength⟩ := codeShape i
  rw [← hiset, decode_bytes hlength, decodeCode_encode h]
  rfl

/-! ### The fetch at the pc (R45, R57) -/

/-- What a longer read begins with is what a shorter one gives. -/
theorem Memory.readBytes_take {m : Memory} {a : Word} {n : Nat} {bs : List Byte} (j : Nat)
    (h : m.readBytes a (j + n) = .ok bs) : m.readBytes a j = .ok (bs.take j) := by
  induction j generalizing a bs with
  | zero => rfl
  | succ j ih =>
    rw [Nat.add_right_comm] at h
    simp only [Memory.readBytes] at h ⊢
    split at h
    · cases h
    · rename_i b hb
      cases htail : m.readBytes (a + 1) (j + n) with
      | error x => rw [htail] at h; cases h
      | ok tail =>
        rw [htail] at h
        cases h
        rw [ih htail]
        rfl

/-- The fetch reads the whole of the code at the pc: the first halfword of a Thumb code tells its length. -/
theorem fetchBytes_of_code {s : State} {c : Code} (hiset : s.cpsr.iset = c.iset)
    (hlength : Laws.CodeShape.lengthShown c = true)
    (h : (s.mem s.regime).readBytes s.pc (c.bytes s.fetchOrder).length = .ok (c.bytes s.fetchOrder)) :
    fetchBytes s = .ok (c.bytes s.fetchOrder) := by
  cases c with
  | arm w =>
    rw [Code.bytes, bytesOfWord_length] at h
    simpa only [fetchBytes, hiset, Code.iset, Code.bytes] using h
  | t16 h1 =>
    obtain ⟨b0, b1, hb, hw⟩ := bytesOfHalf_cases s.fetchOrder h1
    have hshort : isThumb32 h1 = false := by simpa [Laws.CodeShape.lengthShown] using hlength
    simp only [Code.bytes, hb] at h ⊢
    simp [fetchBytes, hiset, Code.iset, hw, hshort, show (s.mem s.regime).readBytes s.pc 2 = _ from h]
  | t32 h1 h2 =>
    obtain ⟨b0, b1, hb, hw⟩ := bytesOfHalf_cases s.fetchOrder h1
    obtain ⟨b2, b3, hb', _⟩ := bytesOfHalf_cases s.fetchOrder h2
    have hlong : isThumb32 h1 = true := hlength
    simp only [Code.bytes, hb, hb'] at h ⊢
    have first : (s.mem s.regime).readBytes s.pc 2 = .ok [b0, b1] := Memory.readBytes_take (n := 2) 2 h
    simp [fetchBytes, hiset, Code.iset, hw, hlong, first, show (s.mem s.regime).readBytes s.pc 4 = _ from h]

/-- Where the code of a well-formed instruction of the current set stands at an aligned pc, the fetch finds it. -/
theorem fetch_of_code {s : State} {i : Instr} (hwf : i.wellFormed = true) (hiset : s.cpsr.iset = i.iset)
    (hpc : pcAligned i.iset s.pc = true)
    (h : (s.mem s.regime).readBytes s.pc i.len = .ok ((encode i).bytes s.fetchOrder)) : fetch s = .instr i := by
  obtain ⟨hset, hlen, hlength⟩ := codeShape i
  have hbytes := fetchBytes_of_code (hiset.trans hset.symm) hlength (by rw [hlen]; exact h)
  have hdecode := decode_bytes_encode hwf s.fetchOrder []
  rw [List.append_nil] at hdecode
  have hscope : ¬ (i.iset = .jazelle ∨ i.iset = .thumbEE) := by cases i <;> simp [Instr.iset]
  simp [fetch, hiset, hscope, hpc, hbytes, hdecode]

/-- Settles O5. -/
theorem stepRunsTheDecodedInstruction : Obligations.StepRunsTheDecodedInstruction := by
  intro s i hwf hiset hpc h
  refine ⟨fun hi hasync => ?_, fun rest hi hasync => ?_⟩
  · rw [step, hi]
    exact (runBoundary_quiet hasync).trans (runInstr_of_fetch (fetch_of_code hwf hiset hpc h))
  · rw [step, hi]
    exact (runBoundary_quiet hasync).trans
      (runInstr_of_fetch (fetch_of_code (s := { s with inputs := rest }) hwf hiset hpc h))

end Sys2Proof.Machine

/-! # Encoding: the decoder reads codes and nothing else; calls that only go on; failing instructions -/

namespace Sys2Proof.Machine

/-- Settles O1. -/
theorem decodeEncodeRoundTrip : Obligations.DecodeEncodeRoundTrip :=
  fun _ o rest h => decode_bytes_encode h o rest

/-- Settles O3: each word is the code of its instruction, field by field. -/
theorem specWordsDecode : Obligations.SpecWordsDecode :=
  ⟨decodeCode_encode (i := .svcA1 0xE#4 0x123456#24) rfl,
    decodeCode_encode (i := .smcA1 0xE#4 15#4) rfl,
    decodeCode_encode (i := .hvcA1 0x1234#16) rfl,
    decodeCode_encode (i := .srsA1 true false true 19#5) rfl,
    decodeCode_encode (i := .cpsA1 0b11#2 true true true true 19#5) rfl,
    decodeCode_encode (i := .svcT1 255#8) rfl,
    decodeCode_encode (i := .cpsT1 true false true false) rfl,
    decodeCode_encode (i := .smcT1 0#4) rfl,
    decodeCode_encode (i := .hvcT1 0x1234#16) rfl,
    decodeCode_encode (i := .srsT1 true 19#5) rfl,
    decodeCode_encode (i := .srsT2 true 19#5) rfl,
    decodeCode_encode (i := .cpsT2 0b00#2 true false false false 19#5) rfl⟩

/-! ### What matches a row is the code of the instruction read (R57) -/

/-- The bits that the mask of a row selects are those of the row. -/
theorem extractLsb'_of_and_eq {n : Nat} {w mask v : BitVec n} (h : w &&& mask = v) (i k : Nat)
    (hmask : mask.extractLsb' i k = BitVec.allOnes k) : w.extractLsb' i k = v.extractLsb' i k := by
  rw [← h, BitVec.extractLsb'_and, hmask, BitVec.and_allOnes]

/-- The code `c` is that of the well-formed instruction `i`. -/
def IsCodeOf (c : Code) (i : Instr) : Prop := i.wellFormed = true ∧ encode i = c

/-! One lemma per row: each fixed field is cut out of the word like the others, and the fields put together again are
the word. -/

theorem isCodeOf_svcA1 {w : Word} (h : w &&& 0x0F000000#32 = 0x0F000000#32) (hcond : w.extractLsb' 28 4 ≠ 0xF#4) :
    IsCodeOf (.arm w) (.svcA1 (w.extractLsb' 28 4) (w.extractLsb' 0 24)) := by
  have f24 : w.extractLsb' 24 4 = 0xF#4 := extractLsb'_of_and_eq h 24 4 rfl
  refine ⟨by simpa [Instr.wellFormed] using hcond, congrArg Code.arm ?_⟩
  rw [← f24]
  simp (disch := decide) only [BitVec.extractLsb'_append_extractLsb'_eq_extractLsb', BitVec.extractLsb'_eq_self]

theorem isCodeOf_smcA1 {w : Word} (h : w &&& 0x0FFFFFF0#32 = 0x01600070#32) (hcond : w.extractLsb' 28 4 ≠ 0xF#4) :
    IsCodeOf (.arm w) (.smcA1 (w.extractLsb' 28 4) (w.extractLsb' 0 4)) := by
  have f4 : w.extractLsb' 4 24 = 0x160007#24 := extractLsb'_of_and_eq h 4 24 rfl
  refine ⟨by simpa [Instr.wellFormed] using hcond, congrArg Code.arm ?_⟩
  rw [← f4]
  simp (disch := decide) only [BitVec.extractLsb'_append_extractLsb'_eq_extractLsb', BitVec.extractLsb'_eq_self]

theorem isCodeOf_hvcA1 {w : Word} (h : w &&& 0xFFF000F0#32 = 0xE1400070#32) :
    IsCodeOf (.arm w) (.hvcA1 (w.extractLsb' 8 12 ++ w.extractLsb' 0 4)) := by
  have f20 : w.extractLsb' 20 12 = 0xE14#12 := extractLsb'_of_and_eq h 20 12 rfl
  have f4 : w.extractLsb' 4 4 = 0x7#4 := extractLsb'_of_and_eq h 4 4 rfl
  refine ⟨rfl, congrArg Code.arm ?_⟩
  rw [BitVec.extractLsb'_append_eq_left, BitVec.extractLsb'_append_eq_right, ← f20, ← f4]
  simp (disch := decide) only [BitVec.extractLsb'_append_extractLsb'_eq_extractLsb', BitVec.extractLsb'_eq_self]

theorem isCodeOf_srsA1 {w : Word} (h : w &&& 0xFE5FFFE0#32 = 0xF84D0500#32) :
    IsCodeOf (.arm w) (.srsA1 (w.getLsbD 24) (w.getLsbD 23) (w.getLsbD 21) (w.extractLsb' 0 5)) := by
  have f25 : w.extractLsb' 25 7 = 0b1111100#7 := extractLsb'_of_and_eq h 25 7 rfl
  have f22 : w.extractLsb' 22 1 = 1#1 := extractLsb'_of_and_eq h 22 1 rfl
  have f5 : w.extractLsb' 5 16 = 0b0110100000101000#16 := extractLsb'_of_and_eq h 5 16 rfl
  refine ⟨rfl, congrArg Code.arm ?_⟩
  rw [← f25, ← f22, ← f5]
  simp (disch := decide) only [ofBool_getLsbD, BitVec.extractLsb'_append_extractLsb'_eq_extractLsb',
    BitVec.extractLsb'_eq_self]

theorem isCodeOf_cpsA1 {w : Word} (h : w &&& 0xFFF1FE20#32 = 0xF1000000#32) :
    IsCodeOf (.arm w) (.cpsA1 (w.extractLsb' 18 2) (w.getLsbD 17) (w.getLsbD 8) (w.getLsbD 7) (w.getLsbD 6)
      (w.extractLsb' 0 5)) := by
  have f20 : w.extractLsb' 20 12 = 0b111100010000#12 := extractLsb'_of_and_eq h 20 12 rfl
  have f9 : w.extractLsb' 9 8 = 0b00000000#8 := extractLsb'_of_and_eq h 9 8 rfl
  have f5 : w.extractLsb' 5 1 = 0#1 := extractLsb'_of_and_eq h 5 1 rfl
  refine ⟨rfl, congrArg Code.arm ?_⟩
  rw [← f20, ← f9, ← f5]
  simp (disch := decide) only [ofBool_getLsbD, BitVec.extractLsb'_append_extractLsb'_eq_extractLsb',
    BitVec.extractLsb'_eq_self]

theorem isCodeOf_svcT1 {h1 : Half} (h : h1 &&& 0xFF00#16 = 0xDF00#16) :
    IsCodeOf (.t16 h1) (.svcT1 (h1.extractLsb' 0 8)) := by
  have f8 : h1.extractLsb' 8 8 = 0xDF#8 := extractLsb'_of_and_eq h 8 8 rfl
  refine ⟨rfl, congrArg Code.t16 ?_⟩
  rw [← f8]
  exact append_extractLsb' (a := 8) (b := 8) h1

theorem isCodeOf_cpsT1 {h1 : Half} (h : h1 &&& 0xFFE8#16 = 0xB660#16) :
    IsCodeOf (.t16 h1) (.cpsT1 (h1.getLsbD 4) (h1.getLsbD 2) (h1.getLsbD 1) (h1.getLsbD 0)) := by
  have f5 : h1.extractLsb' 5 11 = 0b10110110011#11 := extractLsb'_of_and_eq h 5 11 rfl
  have f3 : h1.extractLsb' 3 1 = 0#1 := extractLsb'_of_and_eq h 3 1 rfl
  refine ⟨rfl, congrArg Code.t16 ?_⟩
  rw [← f5, ← f3]
  simp (disch := decide) only [ofBool_getLsbD, BitVec.extractLsb'_append_extractLsb'_eq_extractLsb',
    BitVec.extractLsb'_eq_self]

theorem isCodeOf_smcT1 {h1 : Half} (h : h1 &&& 0xFFF0#16 = 0xF7F0#16) :
    IsCodeOf (.t32 h1 0x8000#16) (.smcT1 (h1.extractLsb' 0 4)) := by
  have f4 : h1.extractLsb' 4 12 = 0xF7F#12 := extractLsb'_of_and_eq h 4 12 rfl
  refine ⟨rfl, congrArg (Code.t32 · _) ?_⟩
  rw [← f4]
  exact append_extractLsb' (a := 12) (b := 4) h1

theorem isCodeOf_hvcT1 {h1 h2 : Half} (h : h1 &&& 0xFFF0#16 = 0xF7E0#16) (h' : h2 &&& 0xF000#16 = 0x8000#16) :
    IsCodeOf (.t32 h1 h2) (.hvcT1 (h1.extractLsb' 0 4 ++ h2.extractLsb' 0 12)) := by
  have f4 : h1.extractLsb' 4 12 = 0xF7E#12 := extractLsb'_of_and_eq h 4 12 rfl
  have f12 : h2.extractLsb' 12 4 = 0x8#4 := extractLsb'_of_and_eq h' 12 4 rfl
  refine ⟨rfl, congrArg₂ Code.t32 ?_ ?_⟩
  · rw [BitVec.extractLsb'_append_eq_left, ← f4]
    exact append_extractLsb' (a := 12) (b := 4) h1
  · rw [BitVec.extractLsb'_append_eq_right, ← f12]
    exact append_extractLsb' (a := 4) (b := 12) h2

/-- The first halfword of SRSDB and of SRSIA (R57): the fixed bits above and below `W`. -/
theorem srs_half1 {h1 : Half} (b : BitVec 10) (f6 : h1.extractLsb' 6 10 = b) (f0 : h1.extractLsb' 0 5 = 0b01101#5) :
    b ++ BitVec.ofBool (h1.getLsbD 5) ++ 0b01101#5 = h1 := by
  rw [← f6, ← f0]
  simp (disch := decide) only [ofBool_getLsbD, BitVec.extractLsb'_append_extractLsb'_eq_extractLsb',
    BitVec.extractLsb'_eq_self]

/-- The second halfword of SRSDB and of SRSIA (R57). -/
theorem srs_half2 {h2 : Half} (h : h2 &&& 0xFFE0#16 = 0xC000#16) :
    0b11000000000#11 ++ h2.extractLsb' 0 5 = h2 := by
  have f5 : h2.extractLsb' 5 11 = 0b11000000000#11 := extractLsb'_of_and_eq h 5 11 rfl
  rw [← f5]
  exact append_extractLsb' (a := 11) (b := 5) h2

theorem isCodeOf_srsT1 {h1 h2 : Half} (h : h1 &&& 0xFFDF#16 = 0xE80D#16) (h' : h2 &&& 0xFFE0#16 = 0xC000#16) :
    IsCodeOf (.t32 h1 h2) (.srsT1 (h1.getLsbD 5) (h2.extractLsb' 0 5)) :=
  ⟨rfl, congrArg₂ Code.t32
    (srs_half1 _ (extractLsb'_of_and_eq h 6 10 rfl) (extractLsb'_of_and_eq h 0 5 rfl)) (srs_half2 h')⟩

theorem isCodeOf_srsT2 {h1 h2 : Half} (h : h1 &&& 0xFFDF#16 = 0xE98D#16) (h' : h2 &&& 0xFFE0#16 = 0xC000#16) :
    IsCodeOf (.t32 h1 h2) (.srsT2 (h1.getLsbD 5) (h2.extractLsb' 0 5)) :=
  ⟨rfl, congrArg₂ Code.t32
    (srs_half1 _ (extractLsb'_of_and_eq h 6 10 rfl) (extractLsb'_of_and_eq h 0 5 rfl)) (srs_half2 h')⟩

theorem isCodeOf_cpsT2 {h2 : Half} (h : h2 &&& 0xF800#16 = 0x8000#16) :
    IsCodeOf (.t32 0xF3AF#16 h2) (.cpsT2 (h2.extractLsb' 9 2) (h2.getLsbD 8) (h2.getLsbD 7) (h2.getLsbD 6)
      (h2.getLsbD 5) (h2.extractLsb' 0 5)) := by
  have f11 : h2.extractLsb' 11 5 = 0b10000#5 := extractLsb'_of_and_eq h 11 5 rfl
  refine ⟨rfl, congrArg (Code.t32 _) ?_⟩
  rw [← f11]
  simp (disch := decide) only [ofBool_getLsbD, BitVec.extractLsb'_append_extractLsb'_eq_extractLsb',
    BitVec.extractLsb'_eq_self]

theorem isCodeOf_of_decodeArm {w : Word} {i : Instr} (h : decodeArm w = .ok i) : IsCodeOf (.arm w) i := by
  unfold decodeArm at h
  split at h
  case isTrue hsvc => cases h; exact isCodeOf_svcA1 hsvc.1 hsvc.2
  split at h
  case isTrue hsmc => cases h; exact isCodeOf_smcA1 hsmc.1 hsmc.2
  split at h
  case isTrue hhvc => cases h; exact isCodeOf_hvcA1 hhvc
  split at h
  case isTrue hsrs => cases h; exact isCodeOf_srsA1 hsrs
  split at h
  case isTrue hcps => cases h; exact isCodeOf_cpsA1 hcps
  cases h

theorem isCodeOf_of_decodeThumb16 {h1 : Half} {i : Instr} (h : decodeThumb16 h1 = .ok i) : IsCodeOf (.t16 h1) i := by
  unfold decodeThumb16 at h
  split at h
  case isTrue hsvc => cases h; exact isCodeOf_svcT1 hsvc
  split at h
  case isTrue hcps => cases h; exact isCodeOf_cpsT1 hcps
  cases h

theorem isCodeOf_of_decodeThumb32 {h1 h2 : Half} {i : Instr} (h : decodeThumb32 h1 h2 = .ok i) :
    IsCodeOf (.t32 h1 h2) i := by
  unfold decodeThumb32 at h
  split at h
  case isTrue hsmc => obtain ⟨hfirst, rfl⟩ := hsmc; cases h; exact isCodeOf_smcT1 hfirst
  split at h
  case isTrue hhvc => cases h; exact isCodeOf_hvcT1 hhvc.1 hhvc.2
  split at h
  case isTrue hsrs => cases h; exact isCodeOf_srsT1 hsrs.1 hsrs.2
  split at h
  case isTrue hsrs => cases h; exact isCodeOf_srsT2 hsrs.1 hsrs.2
  split at h
  case isTrue hcps => obtain ⟨rfl, hsecond⟩ := hcps; cases h; exact isCodeOf_cpsT2 hsecond
  cases h

/-- The row tests accept the codes of well-formed instructions and nothing else: the converse of `decodeCode_encode`. -/
theorem isCodeOf_of_decodeCode {c : Code} {i : Instr} (h : decodeCode c = .ok i) : IsCodeOf c i := by
  cases c with
  | arm w => exact isCodeOf_of_decodeArm h
  | t16 h1 => exact isCodeOf_of_decodeThumb16 h
  | t32 h1 h2 => exact isCodeOf_of_decodeThumb32 h

/-! ### The decoder reads the bytes of one code (R46, R57) -/

theorem bytesOfHalf_halfOfBytes (o : Endian) (b0 b1 : Byte) : bytesOfHalf o (halfOfBytes o b0 b1) = [b0, b1] := by
  cases o <;> simp only [bytesOfHalf, halfOfBytes, BitVec.extractLsb'_append_eq_left,
    BitVec.extractLsb'_append_eq_right]

theorem bytesOfWord_wordOfBytes (o : Endian) (b0 b1 b2 b3 : Byte) :
    bytesOfWord o (wordOfBytes o b0 b1 b2 b3) = [b0, b1, b2, b3] := by
  cases o <;>
    simp (disch := decide) only [bytesOfWord, wordOfBytes, BitVec.extractLsb'_append_eq_of_le,
      BitVec.extractLsb'_append_eq_of_add_le, Nat.reduceSub, BitVec.extractLsb'_eq_self]

theorem map_pair_eq_ok {x : Except DecodeError Instr} {rest rest' : List Byte} {i : Instr}
    (h : x.map (·, rest') = .ok (i, rest)) : x = .ok i ∧ rest' = rest := by
  cases x with
  | error e => cases h
  | ok j => cases h; exact ⟨rfl, rfl⟩

/-- What the decoder reads are the bytes of a code of the set decoded, which passes the row tests. -/
theorem decode_ok {iset : ISet} {o : Endian} {bs rest : List Byte} {i : Instr} (h : decode iset o bs = .ok (i, rest)) :
    ∃ c : Code, c.iset = iset ∧ bs = c.bytes o ++ rest ∧ decodeCode c = .ok i := by
  cases iset with
  | arm =>
    simp only [decode] at h
    split at h
    · obtain ⟨hrow, rfl⟩ := map_pair_eq_ok h
      exact ⟨.arm _, rfl, by rw [Code.bytes, bytesOfWord_wordOfBytes]; rfl, hrow⟩
    · cases h
  | thumb =>
    simp only [decode] at h
    split at h
    · split at h
      · split at h
        · obtain ⟨hrow, rfl⟩ := map_pair_eq_ok h
          exact ⟨.t32 _ _, rfl, by rw [Code.bytes, bytesOfHalf_halfOfBytes, bytesOfHalf_halfOfBytes]; rfl, hrow⟩
        · cases h
      · obtain ⟨hrow, rfl⟩ := map_pair_eq_ok h
        exact ⟨.t16 _, rfl, by rw [Code.bytes, bytesOfHalf_halfOfBytes]; rfl, hrow⟩
    · cases h
  | jazelle | thumbEE => cases h

/-- Settles O2: the bytes read are those of a code, a code that passes the row tests is an encoding, and an encoding is
of its instruction's set. -/
theorem decodedBytesAreTheEncoding : Obligations.DecodedBytesAreTheEncoding := by
  intro iset o bs rest i h
  obtain ⟨c, rfl, rfl, hrow⟩ := decode_ok h
  obtain ⟨hwf, rfl⟩ := isCodeOf_of_decodeCode hrow
  obtain ⟨hset, _, _⟩ := codeShape i
  exact ⟨hwf, hset.symm, rfl⟩

/-! ### SVC, SMC and HVC: the failed condition and the immediates (R57, R58, R65) -/

theorem exec_svcA1_of_failed {s : State} {cond : BitVec 4} (h : condPasses cond s.cpsr = false)
    (imm24 : BitVec 24) : exec (.svcA1 cond imm24) s = .next (advance s.impl.iLen.svcA1 s) := by
  simp [exec, execSvcA1, h]

theorem exec_smcA1_of_failed {s : State} {cond : BitVec 4} (h : condPasses cond s.cpsr = false)
    (hsec : s.impl.secExt = true) (imm4 : BitVec 4) :
    exec (.smcA1 cond imm4) s = .next (advance s.impl.iLen.smcA1 s) := by
  simp [exec, execSmcA1, h, hsec]

/-- Settles O33. -/
theorem failedConditionDoesNothing : Obligations.FailedConditionDoesNothing :=
  fun _ _ h => ⟨exec_svcA1_of_failed h, exec_smcA1_of_failed h⟩

/-- Settles O34: no meaning of the six encodings reads its immediate. -/
theorem callImmediatesChangeNothing : Obligations.CallImmediatesChangeNothing :=
  fun _ => ⟨fun _ _ _ => rfl, fun _ _ => rfl, fun _ _ _ => rfl, fun _ _ => rfl, fun _ _ => rfl, fun _ _ => rfl⟩

/-! ### Entry through a PL1 table (R92, R102, R110) -/

/-- Steps 2 to 7 of R110 are the whole of `enter`. -/
theorem enter_entered (e : Exc) (ctx : Ctx) (tgt : ExcMode) (vec : Word) (s : State) :
    Entered e ctx.prefReturn ctx.itAtPref tgt vec s (enter e ctx tgt vec s) where
  link := by rw [enter_link, Bank.get_set_same]
  spsr := by rw [enter_spsr, Bank.get_set_same]
  ns := by simp [nsAfterEntry]
  mode := rfl
  cpsr := rfl
  pc := rfl
  others k hk := by
    rw [enter_link, enter_spsr, Bank.get_set_other _ _ hk, Bank.get_set_other _ _ hk]
    exact ⟨rfl, rfl⟩
  stackPointers _ := rfl
  control := .refl s
  memory r x := by rw [enter_mem]
  stored := rfl

/-- An exception to a PL1 mode that is not an interrupt goes to its offset of the current security state's table, where
that table is ready (R102, R120). -/
theorem vectorAddress_of_pl1Mode {e : Exc} {tgt : ExcMode} {s : State} {o : Word} (hmode : pl1Mode e = some tgt)
    (ho : offPL1 e = some o) (hirq : isVectored e tgt s = false) (hvirt : virtualVectored e s = false)
    (hready : tableReady s (tableRegime s.isSecure) (excVectorBase s s.isSecure) = true) :
    vectorAddress e tgt s = .ok (excVectorBase s s.isSecure + o) := by
  have htable := tableVector_ready (e := e) (o := o) hready
  obtain ⟨hmon, hhyp⟩ := pl1Mode_ne hmode
  cases tgt with
  | monitor => exact absurd rfl hmon
  | hyp => exact absurd rfl hhyp
  | supervisor | undefined | abort | irq | fiq => simp [vectorAddress, hirq, hvirt, ho, entrySecure_eq, htable]

/-! ### A failing instruction (R60, R83, R119) -/

/-- The interrupt controller supplies the vector of no failing instruction, and none is a virtual interrupt. -/
theorem syncCause_not_vectored (c : SyncCause) (tgt : ExcMode) (s : State) :
    isVectored c.toExc tgt s = false ∧ virtualVectored c.toExc s = false := by
  cases c <;> exact ⟨rfl, rfl⟩

/-- Without the Security Extensions the state is Secure (R15), so that nothing is routed to Hyp mode (R93). -/
theorem hypPossible_of_no_secExt {s : State} (h : s.impl.secExt = false) : s.hypPossible = false := by
  simp [State.hypPossible, State.isSecure, h]

/-- Without the Security Extensions a failing instruction with a mode of Table B1-4 is taken to that mode (R93, R94). -/
theorem targetMode_syncCause_of_no_secExt {c : SyncCause} {s : State} {tgt : ExcMode}
    (hmode : pl1Mode c.toExc = some tgt) (h : s.impl.secExt = false) : targetMode c.toExc s = .ok tgt := by
  have hroute : route c.toExc s = .ok .pl1 := by
    cases c with
    | hypTrap => cases hmode
    | undefinedInstruction | prefetchAbort | dataAbort =>
      simp only [SyncCause.toExc, route, hypPossible_of_no_secExt h, h, freeRoute_none]
  simp only [targetMode, hroute, hmode]

/-- A failing instruction that is taken to its PL1 mode enters it through the current security state's table, with its
own address as the preferred return address (R102, R119). -/
theorem step_raise_entered {c : SyncCause} {s : State} {rest : List Input} {tgt : ExcMode} {o : Word}
    (hi : s.inputs = .raise c :: rest) (hmode : pl1Mode c.toExc = some tgt) (ho : offPL1 c.toExc = some o)
    (htgt : s.impl.secExt = false ∨ targetMode c.toExc { s with inputs := rest } = .ok tgt)
    (hready : tableReady s (tableRegime s.isSecure) (excVectorBase s s.isSecure) = true) :
    ∃ t, step s = .next t ∧ Entered c.toExc s.pc s.cpsr.it tgt (excVectorBase s s.isSecure + o)
      { s with inputs := rest } t := by
  have htarget : targetMode c.toExc { s with inputs := rest } = .ok tgt :=
    htgt.elim (targetMode_syncCause_of_no_secExt (s := { s with inputs := rest }) hmode) id
  obtain ⟨hirq, hvirt⟩ := syncCause_not_vectored c tgt { s with inputs := rest }
  have hvec := vectorAddress_of_pl1Mode (s := { s with inputs := rest }) hmode ho hirq hvirt hready
  refine ⟨_, ?_, enter_entered c.toExc (ctxAtPc s) tgt _ { s with inputs := rest }⟩
  rw [step, hi]
  exact takeException_of htarget hvec

/-- Settles O24. -/
theorem failingInstructionsEnterPL1 : Obligations.FailingInstructionsEnterPL1 := by
  rintro s u rest rfl hready
  exact ⟨fun hi htgt => step_raise_entered hi rfl rfl htgt hready,
    fun hi htgt => step_raise_entered hi rfl rfl htgt hready,
    fun hi htgt => step_raise_entered hi rfl rfl htgt hready⟩

end Sys2Proof.Machine

/-! # The calls: SVC, SMC and HVC; what they do from User mode -/

namespace Sys2Proof.Machine

/-! ### Where an exception is taken, and to which vector (R93, R120) -/

theorem takeException_entered {e : Exc} {s : State} {tgt : ExcMode} {vec : Word} (ctx : Ctx)
    (ht : targetMode e s = .ok tgt) (hv : vectorAddress e tgt s = .ok vec) :
    ∃ t, takeException e ctx s = .next t ∧ Entered e ctx.prefReturn ctx.itAtPref tgt vec s t :=
  ⟨_, takeException_of ht hv, enter_entered e ctx tgt vec s⟩

/-- An exception that was taken entered the mode it is targeted at. -/
theorem takeException_next_entered {e : Exc} {ctx : Ctx} {s t : State} (h : takeException e ctx s = .next t) :
    ∃ tgt, targetMode e s = .ok tgt ∧ Entered e ctx.prefReturn ctx.itAtPref tgt t.pc s t := by
  obtain ⟨tgt, vec, ht, _, rfl⟩ := takeException_next h
  exact ⟨tgt, ht, enter_entered e ctx tgt vec s⟩

theorem takeException_of_targetMode_error {e : Exc} {s : State} {r : Refusal} (ctx : Ctx)
    (h : targetMode e s = .error r) : takeException e ctx s = .refused r := by
  simp only [takeException, h]

theorem targetMode_of_route_monitor {e : Exc} {s : State} (h : route e s = .ok .monitor) :
    targetMode e s = .ok .monitor := by
  simp only [targetMode, h]

theorem targetMode_of_route_hyp {e : Exc} {s : State} (h : route e s = .ok .hyp) : targetMode e s = .ok .hyp := by
  simp only [targetMode, h]

theorem targetMode_of_route_pl1 {e : Exc} {s : State} {tgt : ExcMode} (h : route e s = .ok .pl1)
    (hmode : pl1Mode e = some tgt) : targetMode e s = .ok tgt := by
  simp only [targetMode, h, hmode]

theorem vectorAddress_monitor {e : Exc} {s : State} {o : Word} (ho : offMon e = some o)
    (hready : tableReady s .securePL1 s.mvbar = true) : vectorAddress e .monitor s = .ok (s.mvbar + o) := by
  simp only [vectorAddress, ho, tableVector_ready hready]

theorem vectorAddress_hyp {e : Exc} {s : State} {o : Word} (ho : offHyp s.impl e (s.cpsr.mode == .hyp) = some o)
    (hready : tableReady s .pl2 s.hvbar = true) : vectorAddress e .hyp s = .ok (s.hvbar + o) := by
  simp only [vectorAddress, ho, tableVector_ready hready]

/-- With the Virtualization Extensions exceptions can be routed to Hyp mode in every Non-secure state (R93). -/
theorem hypPossible_iff {s : State} : s.hypPossible = true ↔ s.impl.virtExt = true ∧ s.isSecure = false := by
  simp [State.hypPossible]

/-! ### SVC (R65) -/

/-- SVC goes to Supervisor mode, but from Hyp mode and from Non-secure User mode with HCR.TGE (R94, R97). -/
theorem targetMode_supervisorCall {s : State} (hmode : s.cpsr.mode ≠ .hyp)
    (htge : ¬ (s.impl.virtExt = true ∧ s.isSecure = false ∧ s.cpsr.mode = .user ∧ s.hcr.tge = true)) :
    targetMode .supervisorCall s = .ok .supervisor := by
  have hforced : (s.hypPossible && s.cpsr.mode == .user && s.hcr.tge) ≠ true := by
    simpa [hypPossible_iff, and_assoc] using htge
  exact targetMode_of_route_pl1 (by simp only [route, if_neg hmode, if_neg hforced]) rfl

theorem targetMode_supervisorCall_of_tge {s : State} (hvirt : s.impl.virtExt = true) (hns : s.isSecure = false)
    (huser : s.cpsr.mode = .user) (htge : s.hcr.tge = true) : targetMode .supervisorCall s = .ok .hyp :=
  targetMode_of_route_hyp (by simp [route, huser, htge, hypPossible_iff.2 ⟨hvirt, hns⟩])

/-- From Hyp mode the route of SVC is the implementation's parameter (D21). -/
theorem targetMode_supervisorCall_of_hyp {s : State} (hmode : s.cpsr.mode = .hyp) :
    targetMode .supervisorCall s = if s.impl.svcFromHyp.isSome then .ok .hyp else .error .svcInHyp := by
  simp only [targetMode, route, if_pos hmode]
  cases s.impl.svcFromHyp <;> rfl

theorem isTakenSvc_svcT1 (imm8 : BitVec 8) (s : State) : IsTakenSvc (.svcT1 imm8) s := .inl ⟨imm8, rfl⟩

theorem isTakenSvc_svcA1 {cond : BitVec 4} {s : State} (h : condPasses cond s.cpsr = true) (imm24 : BitVec 24) :
    IsTakenSvc (.svcA1 cond imm24) s :=
  .inr ⟨cond, imm24, rfl, h⟩

/-- A taken SVC enters the mode it is targeted at, with the next instruction as the preferred return address (R119). -/
theorem exec_isTakenSvc_entered {i : Instr} {s : State} {tgt : ExcMode} {vec : Word} (hi : IsTakenSvc i s)
    (ht : targetMode .supervisorCall s = .ok tgt) (hv : vectorAddress .supervisorCall tgt s = .ok vec) :
    ∃ t, exec i s = .next t ∧ Entered .supervisorCall (s.pc + BitVec.ofNat 32 (lengthOf s.impl.iLen i))
      (itNext s.cpsr) tgt vec s t := by
  rw [exec_of_isTakenSvc hi]
  exact takeException_entered _ ht hv

/-- Settles O26: the route is PL1, and a Supervisor Call is no interrupt, so that its vector is in the table. -/
theorem svcEntersSupervisor : Obligations.SvcEntersSupervisor := by
  intro s hmode htge hready
  have ht := targetMode_supervisorCall hmode htge
  have hv : vectorAddress .supervisorCall .supervisor s = .ok (excVectorBase s s.isSecure + 0x08#32) :=
    vectorAddress_of_pl1Mode rfl rfl rfl rfl hready
  exact ⟨fun _ imm24 hc => exec_isTakenSvc_entered (isTakenSvc_svcA1 hc imm24) ht hv,
    fun imm8 => exec_isTakenSvc_entered (isTakenSvc_svcT1 imm8 s) ht hv⟩

/-- Settles O27: HCR.TGE forces the route, and User mode is not Hyp mode, so that the offset is `0x14`. -/
theorem svcWithTgeEntersHyp : Obligations.SvcWithTgeEntersHyp := by
  intro s hvirt hns huser htge hready
  have ht := targetMode_supervisorCall_of_tge hvirt hns huser htge
  have hv : vectorAddress .supervisorCall .hyp s = .ok (s.hvbar + 0x14#32) :=
    vectorAddress_hyp (by rw [huser]; rfl) hready
  exact ⟨fun _ imm24 hc => exec_isTakenSvc_entered (isTakenSvc_svcA1 hc imm24) ht hv,
    fun imm8 => exec_isTakenSvc_entered (isTakenSvc_svcT1 imm8 s) ht hv⟩

/-- Settles O28: the parameter is the route and the offset of SVC from Hyp mode. -/
theorem svcInHypNeedsItsParameter : Obligations.SvcInHypNeedsItsParameter := by
  intro s hmode
  have htarget := targetMode_supervisorCall_of_hyp hmode
  refine ⟨fun hnone => ?_, fun k hsome hready => ?_⟩
  · have refuses {i : Instr} (hi : IsTakenSvc i s) : exec i s = .refused .svcInHyp := by
      rw [exec_of_isTakenSvc hi]
      exact takeException_of_targetMode_error _ (by simp [htarget, hnone])
    exact ⟨fun imm8 => refuses (isTakenSvc_svcT1 imm8 s), fun _ imm24 hc => refuses (isTakenSvc_svcA1 hc imm24)⟩
  · have ht : targetMode .supervisorCall s = .ok .hyp := by simp [htarget, hsome]
    have hv : vectorAddress .supervisorCall .hyp s = .ok (s.hvbar + BitVec.ofNat 32 (4 * (k.val + 1))) :=
      vectorAddress_hyp (by simp [offHyp, hmode, hsome]) hready
    exact ⟨fun imm8 => exec_isTakenSvc_entered (isTakenSvc_svcT1 imm8 s) ht hv,
      fun _ imm24 hc => exec_isTakenSvc_entered (isTakenSvc_svcA1 hc imm24) ht hv⟩

/-! ### An SVC in the handler of an SVC (R130) -/

/-- What a completed SVC targeted at Supervisor mode has done: entry there, to return to the next instruction. -/
theorem entered_of_exec_isTakenSvc {i : Instr} {s t : State} (hi : IsTakenSvc i s) (h : exec i s = .next t)
    (ht : targetMode .supervisorCall s = .ok .supervisor) :
    Entered .supervisorCall (s.pc + BitVec.ofNat 32 (lengthOf s.impl.iLen i)) (itNext s.cpsr) .supervisor t.pc s t := by
  rw [exec_of_isTakenSvc hi] at h
  obtain ⟨tgt, htgt, entered⟩ := takeException_next_entered h
  obtain rfl : .supervisor = tgt := Except.ok.inj (ht.symm.trans htgt)
  exact entered

/-- The mode after a taken SVC tells the mode it is targeted at. -/
theorem targetMode_of_exec_isTakenSvc {i : Instr} {s t : State} (hi : IsTakenSvc i s) (h : exec i s = .next t)
    (hmode : t.cpsr.mode = .supervisor) : targetMode .supervisorCall s = .ok .supervisor := by
  rw [exec_of_isTakenSvc hi] at h
  obtain ⟨tgt, htgt, entered⟩ := takeException_next_entered h
  have htoMode : tgt.toMode = .supervisor := entered.mode.symm.trans hmode
  cases tgt with
  | supervisor => exact htgt
  | undefined | abort | irq | fiq | monitor | hyp => cases htoMode

/-- Settles O49: the handler runs in Supervisor mode, from where SVC is taken to Supervisor mode again. -/
theorem nestedCallOverwritesItsOwnMode : Obligations.NestedCallOverwritesItsOwnMode := by
  intro s t u i j hi hj hout hmode hin
  have outer := entered_of_exec_isTakenSvc hi hout (targetMode_of_exec_isTakenSvc hi hout hmode)
  have inner := entered_of_exec_isTakenSvc hj hin
    (targetMode_supervisorCall (by simp [hmode]) (by simp [hmode]))
  refine ⟨outer.link, outer.spsr, inner.link, inner.spsr, fun k hk => ?_⟩
  obtain ⟨houterLink, houterSpsr⟩ := outer.others k hk
  obtain ⟨hinnerLink, hinnerSpsr⟩ := inner.others k hk
  exact ⟨hinnerLink.trans houterLink, hinnerSpsr.trans houterSpsr⟩

/-! ### SMC (R66) -/

theorem exec_smcA1_of_passed {s : State} {cond : BitVec 4} (hsec : s.impl.secExt = true)
    (h : condPasses cond s.cpsr = true) (imm4 : BitVec 4) :
    exec (.smcA1 cond imm4) s = secureMonitorCall s.impl.iLen.smcA1 s := by
  simp [exec, execSmcA1, hsec, h]

theorem exec_smcT1 {s : State} (hsec : s.impl.secExt = true) (imm4 : BitVec 4) :
    exec (.smcT1 imm4) s = secureMonitorCall s.impl.iLen.smcT1 s := by
  simp [exec, execSmcT1, hsec]

theorem exec_smcA1_of_no_secExt {s : State} (hsec : s.impl.secExt = false) (cond imm4 : BitVec 4) :
    exec (.smcA1 cond imm4) s = .refused .noSuchInstruction := by
  simp [exec, execSmcA1, hsec]

theorem exec_smcT1_of_no_secExt {s : State} (hsec : s.impl.secExt = false) (imm4 : BitVec 4) :
    exec (.smcT1 imm4) s = .refused .noSuchInstruction := by
  simp [exec, execSmcT1, hsec]

theorem secureMonitorCall_of_user {s : State} (h : s.cpsr.mode = .user) (n : Nat) :
    secureMonitorCall n s = .refused .callNotPermitted :=
  if_pos h

/-- SMC outside User mode is taken to Monitor mode, with the next instruction as the preferred return address (R98). -/
theorem secureMonitorCall_entered {s : State} (hsec : s.impl.secExt = true) (hmode : s.cpsr.mode ≠ .user)
    (hready : tableReady s .securePL1 s.mvbar = true) (n : Nat) :
    ∃ t, secureMonitorCall n s = .next t ∧ Entered .secureMonitorCall (s.pc + BitVec.ofNat 32 n) (itNext s.cpsr)
      .monitor (s.mvbar + 0x08#32) s t := by
  have ht : targetMode .secureMonitorCall s = .ok .monitor := targetMode_of_route_monitor (if_pos hsec)
  rw [secureMonitorCall, if_neg hmode]
  exact takeException_entered (ctxAfter n s) ht (vectorAddress_monitor rfl hready)

/-- Settles O29. -/
theorem smcEntersMonitor : Obligations.SmcEntersMonitor := by
  intro s hsec hmode hready
  refine ⟨fun cond imm4 hc => ?_, fun imm4 => ?_⟩
  · rw [exec_smcA1_of_passed hsec hc]
    exact secureMonitorCall_entered hsec hmode hready _
  · rw [exec_smcT1 hsec]
    exact secureMonitorCall_entered hsec hmode hready _

/-- Settles O30. -/
theorem smcNotPermitted : Obligations.SmcNotPermitted := by
  refine fun s imm4 => ⟨fun hsec huser => ⟨?_, fun cond hc => ?_⟩, fun hsec => ?_⟩
  · rw [exec_smcT1 hsec, secureMonitorCall_of_user huser]
  · rw [exec_smcA1_of_passed hsec hc, secureMonitorCall_of_user huser]
  · exact ⟨exec_smcT1_of_no_secExt hsec imm4, fun cond => exec_smcA1_of_no_secExt hsec cond imm4⟩

/-! ### HVC (R67) -/

theorem hypervisorCall_of_no_virtExt {s : State} (h : s.impl.virtExt = false) (n : Nat) :
    hypervisorCall n s = .refused .noSuchInstruction := by
  simp [hypervisorCall, h]

theorem hypervisorCall_of_not_permitted {s : State} (hvirt : s.impl.virtExt = true)
    (h : s.isSecure = true ∨ s.cpsr.mode = .user) (n : Nat) : hypervisorCall n s = .refused .callNotPermitted := by
  simp [hypervisorCall, hvirt, h]

theorem hypervisorCall_of_permitted {s : State} (hvirt : s.impl.virtExt = true) (hns : s.isSecure = false)
    (hmode : s.cpsr.mode ≠ .user) (n : Nat) :
    hypervisorCall n s = takeException .hypervisorCall (ctxAfter n s) s := by
  simp [hypervisorCall, hvirt, hns, hmode]

/-- HVC where it is permitted is taken to Hyp mode, with the next instruction as the preferred return address (R97). -/
theorem hypervisorCall_entered {s : State} (hvirt : s.impl.virtExt = true) (hns : s.isSecure = false)
    (hmode : s.cpsr.mode ≠ .user) (hready : tableReady s .pl2 s.hvbar = true) (n : Nat) :
    ∃ t, hypervisorCall n s = .next t ∧ Entered .hypervisorCall (s.pc + BitVec.ofNat 32 n) (itNext s.cpsr) .hyp
      (s.hvbar + if s.cpsr.mode = .hyp then 0x08#32 else 0x14#32) s t := by
  have ht : targetMode .hypervisorCall s = .ok .hyp :=
    targetMode_of_route_hyp (if_pos (hypPossible_iff.2 ⟨hvirt, hns⟩))
  have hv := vectorAddress_hyp (e := .hypervisorCall) (o := if s.cpsr.mode = .hyp then 0x08#32 else 0x14#32)
    (by simp [offHyp]) hready
  rw [hypervisorCall_of_permitted hvirt hns hmode]
  exact takeException_entered (ctxAfter n s) ht hv

/-- Settles O31: both encodings are the same call, each with its own length. -/
theorem hvcEntersHyp : Obligations.HvcEntersHyp := by
  intro s hvirt hns hmode hready imm16
  obtain ⟨t, h, entered⟩ := hypervisorCall_entered hvirt hns hmode hready s.impl.iLen.hvcA1
  obtain ⟨t', h', entered'⟩ := hypervisorCall_entered hvirt hns hmode hready s.impl.iLen.hvcT1
  exact ⟨t, t', h, h', entered, entered'⟩

/-- Settles O32. -/
theorem hvcNotPermitted : Obligations.HvcNotPermitted := fun _ _ =>
  ⟨fun hvirt h => ⟨hypervisorCall_of_not_permitted hvirt h _, hypervisorCall_of_not_permitted hvirt h _⟩,
    fun hvirt => ⟨hypervisorCall_of_no_virtExt hvirt _, hypervisorCall_of_no_virtExt hvirt _⟩⟩

/-! ### User mode (R71, R131) -/

theorem toMode_ne_user (m : ExcMode) : m.toMode ≠ .user := by
  cases m <;> decide

/-- No exception is taken to User mode (R94). -/
theorem takeException_mode_ne_user {e : Exc} {ctx : Ctx} {s t : State} (h : takeException e ctx s = .next t) :
    t.cpsr.mode ≠ .user := by
  obtain ⟨tgt, _, entered⟩ := takeException_next_entered h
  rw [entered.mode]
  exact toMode_ne_user tgt

/-- An exception return from User mode is to User mode: no other mode has its privilege level (R125). -/
theorem exceptionReturn_mode_of_user {addr : Word} {psr : PSR} {s t : State}
    (h : exceptionReturn addr psr s = .next t) (huser : s.cpsr.mode = .user) : t.cpsr.mode = .user := by
  obtain ⟨hcheck, rfl⟩ := exceptionReturn_next h
  obtain ⟨_, _, hrank, _⟩ := returnCheck_none hcheck
  rw [huser] at hrank
  change psr.mode = .user
  cases hm : psr.mode with
  | user => rfl
  | _ => rw [hm] at hrank; exact absurd hrank (by decide)

/-- Of its own moves the machine leaves User mode by an exception alone: SRS stores nothing and CPS changes nothing
there. -/
theorem MachineMoves.takeException_of_user {s t : State} (h : MachineMoves s t) (huser : s.cpsr.mode = .user)
    (hleft : t.cpsr.mode ≠ .user) : ∃ e ctx, takeException e ctx s = .next t := by
  rcases h with (hexc | ⟨n, rfl⟩ | ⟨n, m, stack, a, back, hm, _⟩ | ⟨n, masks, k, hne, _⟩) | ⟨addr, psr, hret⟩
  · exact hexc
  · exact absurd huser hleft
  · rw [huser] at hm; cases hm
  · exact absurd huser hne
  · exact absurd (exceptionReturn_mode_of_user hret huser) hleft

theorem step_leaves_user {s t : State} (h : step s = .next t) (huser : s.cpsr.mode = .user)
    (hleft : t.cpsr.mode ≠ .user) :
    (∃ e ctx rest n, takeException e ctx { s with inputs := rest, draws := n } = .next t)
      ∨ ∃ d rest, s.inputs = .reset d :: rest ∧ takeReset d { s with inputs := rest } = .next t := by
  rcases step_next h with ⟨xs, n, hm⟩ | ⟨p, rest, _, rfl⟩ | hreset | ⟨ws, next, rest, u, _, hu, rfl⟩
  · obtain ⟨e, ctx, he⟩ := hm.takeException_of_user huser hleft
    exact .inl ⟨e, ctx, xs, n, he⟩
  · exact absurd huser hleft
  · exact .inr hreset
  · exact absurd ((applyWrites_ok hu).mode.trans huser) hleft

/-- In User mode CPS does nothing but go on (R71). -/
theorem changeState_of_user {s : State} (h : s.cpsr.mode = .user) (n : Nat) (imod : BitVec 2) (m : Bool) (sel : Masks)
    (mode : BitVec 5) : changeState n imod m sel mode s = .next (advance n s) :=
  if_pos h

/-- In User mode SRS is refused (R70). -/
theorem storeReturn_of_user {s : State} (h : s.cpsr.mode = .user) (n : Nat) (p u w : Bool) (mode : BitVec 5) :
    storeReturn n p u w mode s = .refused .srsNoReturnState :=
  storeReturn_of_excMode_none (by rw [h]; rfl) n p u w mode

/-- What an instruction that completes in User mode does: SVC takes its exception, SMC and HVC are refused, SVC and SMC
whose condition fails go on, and so does CPS. -/
theorem exec_next_of_user {i : Instr} {s t : State} (h : exec i s = .next t) (huser : s.cpsr.mode = .user) :
    (∃ e ctx, takeException e ctx s = .next t) ∨ t = advance (lengthOf s.impl.iLen i) s := by
  have cps {n imod m sel mode} (hc : changeState n imod m sel mode s = .next t) : t = advance n s := by
    rw [changeState_of_user huser] at hc; cases hc; rfl
  have srs {n p u w mode} (hc : storeReturn n p u w mode s = .next t) : False := by
    rw [storeReturn_of_user huser] at hc; cases hc
  cases i with
  | svcA1 cond imm24 =>
    cases hc : condPasses cond s.cpsr with
    | true => exact .inl ⟨_, _, (exec_of_isTakenSvc (isTakenSvc_svcA1 hc imm24)).symm.trans h⟩
    | false => rw [exec_svcA1_of_failed hc] at h; cases h; exact .inr rfl
  | svcT1 imm8 => exact .inl ⟨_, _, (exec_of_isTakenSvc (isTakenSvc_svcT1 imm8 s)).symm.trans h⟩
  | smcA1 cond imm4 =>
    simp only [exec, execSmcA1, secureMonitorCall_of_user huser] at h
    split_ifs at h
    cases h
    exact .inr rfl
  | smcT1 imm4 =>
    simp only [exec, execSmcT1, secureMonitorCall_of_user huser] at h
    split_ifs at h
  | hvcA1 | hvcT1 =>
    obtain ⟨_, hmode, _⟩ := hypervisorCall_next h
    exact absurd huser hmode
  | srsA1 | srsT1 | srsT2 => exact (srs h).elim
  | cpsA1 | cpsT2 => exact .inr (cps h)
  | cpsT1 im a i f =>
    rw [exec, execCpsT1] at h
    exact .inr (cps h)

/-- Settles O54: an exception, which is never taken to User mode, is the only way out of it but for a reset. -/
theorem userModeIsLeftByExceptionOnly : Obligations.UserModeIsLeftByExceptionOnly := by
  refine ⟨fun s t h huser hleft => step_leaves_user h huser hleft, fun i s t h huser => ?_⟩
  rcases exec_next_of_user h huser with ⟨e, ctx, he⟩ | hadvance
  · exact .inl ⟨e, ctx, he, takeException_mode_ne_user he⟩
  · exact .inr hadvance

end Sys2Proof.Machine

/-! # Handler support: SRS stores the return state, CPS changes mode and masks (R70, R71) -/

namespace Sys2Proof.Machine

/-! ### The operands -/

/-- The numbers that name no mode are those that are no mode's number. -/
theorem Mode.ofBits_eq_none_iff {b : BitVec 5} : Mode.ofBits b = none ↔ ∀ k : Mode, k.bits ≠ b := by
  constructor
  · rintro h k rfl
    rw [Mode.ofBits_bits] at h
    cases h
  · intro h
    cases hk : Mode.ofBits b with
    | none => rfl
    | some k => exact absurd (Mode.bits_of_ofBits hk) (h k)

/-- On a mode's number an SRS operand is decided by that mode: PL1, and existing in this configuration and security
state (R70). -/
theorem srsStackMode_bits (s : State) (k : Mode) :
    srsStackMode s k.bits
      = if k.pl = .pl1 ∧ (Impl.hasMode s.impl k && Mode.inSecurity s.isSecure k) = true then some k else none := by
  simp only [srsStackMode, Mode.ofBits_bits]

/-- A number of no mode names no stack. -/
theorem srsStackMode_of_no_mode (s : State) {b : BitVec 5} (h : ∀ k : Mode, k.bits ≠ b) : srsStackMode s b = none := by
  simp only [srsStackMode, Mode.ofBits_eq_none_iff.2 h]

/-- A PL1 mode other than Monitor mode exists in every configuration and in both security states (R13). -/
theorem hasMode_inSecurity_of_pl1 {k : Mode} (hpl : k.pl = .pl1) (hmon : k ≠ .monitor) (c : Impl) (secure : Bool) :
    (Impl.hasMode c k && Mode.inSecurity secure k) = true := by
  cases k with
  | user | hyp => cases hpl
  | monitor => exact absurd rfl hmon
  | fiq | irq | supervisor | abort | undefined | system => rfl

/-- CPS can change to every mode but User, Monitor and Hyp (R71, D20). -/
theorem cpsTarget_bits {k : Mode} (huser : k ≠ .user) (hmon : k ≠ .monitor) (hhyp : k ≠ .hyp) :
    cpsTarget k.bits = some k := by
  rw [cpsTarget, Mode.ofBits_bits]
  cases k with
  | user => exact absurd rfl huser
  | monitor => exact absurd rfl hmon
  | hyp => exact absurd rfl hhyp
  | fiq | irq | supervisor | abort | undefined | system => rfl

/-- CPS has no target where its operand is the number of User, Monitor or Hyp mode or of no mode (R71, D20). -/
theorem cpsTarget_of_forbidden {mode : BitVec 5} (h : mode = Mode.user.bits ∨ mode = Mode.monitor.bits
    ∨ mode = Mode.hyp.bits ∨ ∀ k : Mode, k.bits ≠ mode) : cpsTarget mode = none := by
  rcases h with rfl | rfl | rfl | hnone
  · rw [cpsTarget, Mode.ofBits_bits]
  · rw [cpsTarget, Mode.ofBits_bits]
  · rw [cpsTarget, Mode.ofBits_bits]
  · rw [cpsTarget, Mode.ofBits_eq_none_iff.2 hnone]

/-! ### SRS -/

/-- At a word-aligned address outside the vector tables SRS stores (R47, R53, R70). -/
theorem srsStore_of_aligned {s : State} {p u : Bool} {stack : Mode}
    (ha : (srsAddress p u (s.spOf stack)).extractLsb' 0 2 = 0#2)
    (hhits : hitsVectorTable s s.regime (srsAddress p u (s.spOf stack)) 8 = false) (n : Nat) (w : Bool) (m : ExcMode) :
    srsStore n p u w m stack s = .next (advance n (storeReturnState m stack (srsAddress p u (s.spOf stack))
      (if w then some (srsWriteBack u (s.spOf stack)) else none) s)) := by
  rcases srsStore_cases n p u w m stack s with ⟨hmis, _⟩ | h
  · exact absurd ha hmis
  · rw [h, if_neg (by simp [hhits])]

/-- Every encoding of SRS, where it may store, completes with the return state stored (R70). -/
theorem exec_isSrs_returnStateStored {s : State} {m : ExcMode} {i : Instr} {p u w : Bool} {mode : BitVec 5}
    {stack : Mode} (hi : IsSrs p u w mode i) (hm : s.cpsr.mode.excMode = some m) (hne : m ≠ .hyp)
    (hstack : srsStackMode s mode = some stack) (ha : (srsAddress p u (s.spOf stack)).extractLsb' 0 2 = 0#2)
    (hhits : hitsVectorTable s s.regime (srsAddress p u (s.spOf stack)) 8 = false) :
    ∃ t, exec i s = .next t ∧ ReturnStateStored (lengthOf s.impl.iLen i) m stack (srsAddress p u (s.spOf stack))
      (if w then some (srsWriteBack u (s.spOf stack)) else none) s t := by
  rw [exec_of_isSrs hi, storeReturn_of_srsStackMode hm hne hstack, srsStore_of_aligned ha hhits]
  exact ⟨_, rfl, storeReturnState_returnStateStored _ m stack _ _ s⟩

/-- Settles O37: SRSDB is the addressing mode with `P`, `U` = 1, 0, and SRSIA the one with `P`, `U` = 0, 1. -/
theorem srsStoresTheReturnState : Obligations.SrsStoresTheReturnState := by
  intro s m mode stack w hm hne hstack
  refine ⟨fun p u ha hhits => ?_, fun ha hhits => ?_, fun ha hhits => ?_⟩
  · exact exec_isSrs_returnStateStored (p := p) (u := u) (.inl rfl) hm hne hstack ha hhits
  · exact exec_isSrs_returnStateStored (.inr (.inl ⟨rfl, rfl, rfl⟩)) hm hne hstack ha hhits
  · exact exec_isSrs_returnStateStored (.inr (.inr ⟨rfl, rfl, rfl⟩)) hm hne hstack ha hhits

/-- Settles O35. -/
theorem srsAddressingModes : Obligations.SrsAddressingModes := fun _ => ⟨rfl, rfl, rfl, rfl⟩

/-- Settles O36. -/
theorem srsStackModes : Obligations.SrsStackModes := by
  intro s
  refine ⟨fun k hpl hmon => ?_, ?_, ?_, ?_, fun b hb => srsStackMode_of_no_mode s hb⟩
  · rw [srsStackMode_bits, if_pos ⟨hpl, hasMode_inSecurity_of_pl1 hpl hmon s.impl s.isSecure⟩]
  · simp [srsStackMode_bits, Mode.pl, Impl.hasMode, Mode.inSecurity]
  · rw [srsStackMode_bits, if_neg (by simp [Mode.pl])]
  · rw [srsStackMode_bits, if_neg (by simp [Mode.pl])]

/-! ### CPS, branch by branch (R71): in User mode it is `changeState_of_user` -/

section outsideUserMode

variable {s : State} (hmode : s.cpsr.mode ≠ .user)
include hmode

theorem changeState_of_masks (n : Nat) (imod : BitVec 2) (sel : Masks) (mode : BitVec 5) :
    changeState n imod false sel mode s
      = .next (advance n { s with cpsr := { s.cpsr with masks := cpsMasks imod sel s.cpsr.masks } }) := by
  rw [changeState, if_neg hmode]
  rfl

theorem changeState_of_target {mode : BitVec 5} {k : Mode} (h : cpsTarget mode = some k) (n : Nat) (imod : BitVec 2)
    (sel : Masks) :
    changeState n imod true sel mode s
      = .next (advance n { s with cpsr := { s.cpsr with masks := cpsMasks imod sel s.cpsr.masks, mode := k } }) := by
  simp only [changeState, if_neg hmode, h, reduceIte]

theorem changeState_of_no_target {mode : BitVec 5} (h : cpsTarget mode = none) (n : Nat) (imod : BitVec 2)
    (sel : Masks) : changeState n imod true sel mode s = .refused (.cpsTarget mode) := by
  simp only [changeState, if_neg hmode, h, reduceIte]

end outsideUserMode

/-- Settles O41. -/
theorem cpsChangesMode : Obligations.CpsChangesMode := by
  rintro s imod a i f k hmode huser hmon hhyp _ rfl
  have htarget := cpsTarget_bits huser hmon hhyp
  exact ⟨changeState_of_target hmode htarget s.impl.iLen.cpsA1 imod ⟨a, i, f⟩,
    changeState_of_target hmode htarget s.impl.iLen.cpsT2 imod ⟨a, i, f⟩⟩

/-- Settles O42: `im` 0 and 1 of the 16-bit form are `imod` 10 and 11. -/
theorem cpsChangesMasks : Obligations.CpsChangesMasks := by
  intro s a i f mode hmode
  refine ⟨?_, ?_, ?_⟩
  · rintro imod _ rfl
    exact ⟨changeState_of_masks hmode s.impl.iLen.cpsA1 imod ⟨a, i, f⟩ mode,
      changeState_of_masks hmode s.impl.iLen.cpsT2 imod ⟨a, i, f⟩ mode⟩
  · exact changeState_of_masks hmode s.impl.iLen.cpsT1 0b10#2 ⟨a, i, f⟩ 0#5
  · exact changeState_of_masks hmode s.impl.iLen.cpsT1 0b11#2 ⟨a, i, f⟩ 0#5

/-- Settles O43. -/
theorem cpsDoesNothingInUserMode : Obligations.CpsDoesNothingInUserMode := fun s imod m a i f mode huser =>
  ⟨changeState_of_user huser s.impl.iLen.cpsA1 imod m ⟨a, i, f⟩ mode,
    changeState_of_user huser s.impl.iLen.cpsT2 imod m ⟨a, i, f⟩ mode,
    changeState_of_user huser s.impl.iLen.cpsT1 (if m then 0b11#2 else 0b10#2) false ⟨a, i, f⟩ 0#5⟩

/-- Settles O44. -/
theorem cpsRefusesItsForbiddenTargets : Obligations.CpsRefusesItsForbiddenTargets := by
  intro s imod a i f mode hmode hforbidden
  have htarget := cpsTarget_of_forbidden hforbidden
  exact ⟨changeState_of_no_target hmode htarget s.impl.iLen.cpsA1 imod ⟨a, i, f⟩,
    changeState_of_no_target hmode htarget s.impl.iLen.cpsT2 imod ⟨a, i, f⟩⟩

end Sys2Proof.Machine

/-! # Taking an exception and returning from it: routes, vectors, the effects of entry, exception return -/

namespace Sys2Proof.Machine

/-! ### Entry, said once (R110) -/

/-- Settles O20. The proofs below take an exception apart by it. -/
theorem entryIsTheSevenSteps : Obligations.EntryIsTheSevenSteps := by
  intro e ctx s t h
  obtain ⟨tgt, vec, htgt, hvec, rfl⟩ := takeException_next h
  exact ⟨tgt, htgt, hvec, enter_entered e ctx tgt vec s⟩

theorem toMode_injective : Function.Injective ExcMode.toMode := fun m k h =>
  Option.some.inj (by rw [← m.excMode_toMode, ← k.excMode_toMode, h])

section entered

variable {e : Exc} {pref : Word} {it : BitVec 8} {tgt : ExcMode} {vec : Word} {s t : State}

/-- The mode after entry tells the mode the exception was taken to. -/
theorem Entered.tgt_eq (h : Entered e pref it tgt vec s t) {k : ExcMode} (hmode : t.cpsr.mode = k.toMode) :
    tgt = k :=
  toMode_injective (h.mode.symm.trans hmode)

theorem Entered.impl (h : Entered e pref it tgt vec s t) : t.impl = s.impl := h.control.1

theorem Entered.ns_of_monitor (h : Entered e pref it tgt vec s t)
    (hmon : s.impl.secExt = true ∧ s.cpsr.mode = .monitor) : t.scr.ns = false := by
  rw [h.ns, if_pos hmon]

theorem Entered.ns_of_not_monitor (h : Entered e pref it tgt vec s t)
    (hmon : ¬ (s.impl.secExt = true ∧ s.cpsr.mode = .monitor)) : t.scr.ns = s.scr.ns := by
  rw [h.ns, if_neg hmon]

/-- Entry from Monitor mode is to Secure state, whatever mode it enters (R15, R114). -/
theorem Entered.isSecure_of_monitor (h : Entered e pref it tgt vec s t)
    (hmon : s.impl.secExt = true ∧ s.cpsr.mode = .monitor) : t.isSecure = true := by
  simp [State.isSecure, h.ns_of_monitor hmon]

/-- From Non-secure state an exception leads to Secure state through Monitor mode alone (R15, R114). -/
theorem Entered.isSecure_of_nonsecure (h : Entered e pref it tgt vec s t) (hs : s.isSecure = false)
    (htgt : tgt ≠ .monitor) : t.isSecure = false := by
  obtain ⟨_, hmode, hns⟩ := isSecure_false hs
  by_contra ht
  have htMon := mode_monitor_of_isSecure hs h.impl ((h.ns_of_not_monitor fun hm => hmode hm.2).trans hns)
    (Bool.eq_true_of_not_eq_false ht)
  exact htgt (h.tgt_eq htMon)

end entered

/-- Settles O23. -/
theorem entryFrame : Obligations.EntryFrame := by
  intro e ctx s t h
  obtain ⟨tgt, _, _, entered⟩ := entryIsTheSevenSteps e ctx s t h
  refine ⟨fun k hk => ?_, ?_, entered.control, entered.stackPointers, entered.memory⟩
  · obtain ⟨link, spsr⟩ := entered.others k fun hc => hk (hc ▸ entered.mode.symm)
    exact ⟨spsr, link⟩
  · rw [entered.cpsr]

theorem Masks.le_union (x y : Masks) :
    (x.a = true → (x.union y).a = true) ∧ (x.i = true → (x.union y).i = true)
      ∧ (x.f = true → (x.union y).f = true) := by
  refine ⟨fun h => ?_, fun h => ?_, fun h => ?_⟩ <;> simp [Masks.union, h]

/-- Settles O22. -/
theorem entryOnlySetsMasks : Obligations.EntryOnlySetsMasks := by
  intro e ctx s t h
  obtain ⟨tgt, _, _, entered⟩ := entryIsTheSevenSteps e ctx s t h
  have hmasks : t.cpsr.masks = s.cpsr.masks.union (Config.entryMask e t.cpsr.mode s) := by
    rw [entered.mode, entered.cpsr]
  exact ⟨hmasks, hmasks ▸ Masks.le_union _ _⟩

/-! ### Routes (R93 to R101) -/

/-- An exception is taken to a mode by its route (R93). -/
theorem targetMode_ok {e : Exc} {s : State} {tgt : ExcMode} (h : targetMode e s = .ok tgt) :
    (route e s = .ok .monitor ∧ tgt = .monitor) ∨ (route e s = .ok .hyp ∧ tgt = .hyp) ∨
      (route e s = .ok .pl1 ∧ pl1Mode e = some tgt) := by
  unfold targetMode at h
  split at h
  · cases h
  · cases h; exact .inl ⟨‹_›, rfl⟩
  · cases h; exact .inr (.inl ⟨‹_›, rfl⟩)
  · split at h
    · cases h; exact .inr (.inr ⟨‹_›, ‹_›⟩)
    · cases h

theorem targetMode_monitor_iff {e : Exc} {s : State} :
    targetMode e s = .ok .monitor ↔ route e s = .ok .monitor := by
  refine ⟨fun h => ?_, targetMode_of_route_monitor⟩
  rcases targetMode_ok h with ⟨hr, _⟩ | ⟨_, hc⟩ | ⟨_, hm⟩
  · exact hr
  · cases hc
  · exact absurd rfl (pl1Mode_ne hm).1

theorem targetMode_hyp_iff {e : Exc} {s : State} : targetMode e s = .ok .hyp ↔ route e s = .ok .hyp := by
  refine ⟨fun h => ?_, targetMode_of_route_hyp⟩
  rcases targetMode_ok h with ⟨_, hc⟩ | ⟨hr, _⟩ | ⟨_, hm⟩
  · cases hc
  · exact hr
  · exact absurd rfl (pl1Mode_ne hm).2

/-- Where `SCR` does not route an interrupt to Monitor mode, its free route is another (R99). -/
theorem freeRoute_ne_monitor (e : Exc) (s : State) (hypOk : Bool) :
    (Except.ok (freeRoute e s false hypOk) : Except Refusal Route) ≠ .ok .monitor := fun h =>
  Bool.false_ne_true (freeRoute_monitor (Except.ok.inj h))

theorem route_irq_monitor_iff {s : State} (hsec : s.impl.secExt = true) :
    route .irq s = .ok .monitor ↔ s.scr.irq = true := by
  cases hirq : s.scr.irq <;> simp [route, hsec, hirq, freeRoute_ne_monitor .irq s]

theorem route_fiq_monitor_iff {s : State} (hsec : s.impl.secExt = true) :
    route .fiq s = .ok .monitor ↔ s.scr.fiq = true := by
  cases hfiq : s.scr.fiq <;> simp [route, hsec, hfiq, freeRoute_ne_monitor .fiq s]

/-- A virtual exception is taken in a Non-secure mode other than Hyp, to its PL1 mode (R101). -/
theorem route_virtual {x : AsyncExc} (hx : x.isVirtual = true) (s : State) :
    route x.toExc s
      = if s.hypPossible && s.cpsr.mode != .hyp then .ok .pl1 else .error (.noSuchException x.toExc) := by
  cases x with
  | irq | fiq => cases hx
  | virtualIRQ | virtualFIQ | virtualAbort => rfl

theorem isSecure_of_route_virtual {x : AsyncExc} {s : State} {r : Route} (hx : x.isVirtual = true)
    (h : route x.toExc s = .ok r) : s.isSecure = false := by
  rw [route_virtual hx] at h
  split at h
  case isTrue hc =>
    rw [Bool.and_eq_true, hypPossible_iff] at hc
    obtain ⟨⟨_, hns⟩, _⟩ := hc
    exact hns
  case isFalse => cases h

/-- An exception from elsewhere is routed to Hyp mode as SVC only where HCR.TGE forces it (R97). -/
theorem user_tge_of_route_supervisorCall_hyp {s : State} (hmode : s.cpsr.mode ≠ .hyp)
    (h : route .supervisorCall s = .ok .hyp) :
    s.cpsr.mode = .user ∧ s.isSecure = false ∧ s.hcr.tge = true := by
  simp only [route, if_neg hmode] at h
  split at h
  case isTrue hc =>
    simp only [Bool.and_eq_true, beq_iff_eq, hypPossible_iff] at hc
    obtain ⟨⟨⟨_, hns⟩, huser⟩, htge⟩ := hc
    exact ⟨huser, hns, htge⟩
  case isFalse => cases h

/-- In a legal state an exception is taken to Hyp mode from Non-secure state: where there is a Hyp mode there are the
Security Extensions (R2, R13). -/
theorem Legal.isSecure_of_targetMode_hyp {e : Exc} {s : State} (hs : Legal s) (h : targetMode e s = .ok .hyp) :
    s.impl.virtExt = true ∧ s.isSecure = false := by
  obtain ⟨hvirt, hmode, hns⟩ := hs.virtExt_ns_of_targetMode_hyp h
  have hsec : s.impl.secExt = true := by
    have himpl := hs.1
    simp only [Impl.legal, hvirt, Bool.and_eq_true] at himpl
    exact himpl.1
  exact ⟨hvirt, by simp [State.isSecure, hsec, hmode, hns]⟩

/-- The exceptions with an entry in the Monitor vector table, each with its offset (R98). -/
theorem offMon_cases {e : Exc} {o : Word} (h : offMon e = some o) :
    (e = .secureMonitorCall ∧ o = 0x08#32) ∨ (e = .prefetchAbort ∧ o = 0x0C#32) ∨ (e = .dataAbort ∧ o = 0x10#32)
      ∨ (e = .irq ∧ o = 0x18#32) ∨ (e = .fiq ∧ o = 0x1C#32) := by
  cases e <;> cases h <;> simp

/-- The exceptions with an entry in the Hyp vector table when taken from another mode, each with its offset (R97). -/
theorem offHyp_cases_of_not_fromHyp {c : Impl} {e : Exc} {o : Word} (h : offHyp c e false = some o) :
    (e = .irq ∧ o = 0x18#32) ∨ (e = .fiq ∧ o = 0x1C#32) ∨
      ((e = .supervisorCall ∨ e = .undefinedInstruction ∨ e = .hypervisorCall ∨ e = .prefetchAbort ∨ e = .dataAbort
        ∨ e = .hypTrap) ∧ o = 0x14#32) := by
  cases e <;> cases h <;> simp

/-- The exceptions with an entry in the Hyp vector table when taken from Hyp mode, but for SVC, whose entry is a
parameter (R97, D21). -/
theorem offHyp_cases_of_fromHyp {c : Impl} {e : Exc} {o : Word} (h : offHyp c e true = some o)
    (hne : e ≠ .supervisorCall) :
    (e = .undefinedInstruction ∧ o = 0x04#32) ∨ (e = .hypervisorCall ∧ o = 0x08#32)
      ∨ (e = .prefetchAbort ∧ o = 0x0C#32) ∨ (e = .dataAbort ∧ o = 0x10#32) ∨ (e = .hypTrap ∧ o = 0x14#32)
      ∨ (e = .irq ∧ o = 0x18#32) ∨ (e = .fiq ∧ o = 0x1C#32) := by
  cases e with
  | supervisorCall => exact absurd rfl hne
  | _ => cases h <;> simp

/-- Settles O17: an exception routed to Monitor or Hyp mode has an entry in that table, and one routed to PL1 is taken
to its mode of Table B1-4. -/
theorem routesOfEachException : Obligations.RoutesOfEachException := by
  intro e s tgt h
  refine ⟨?_, fun hmon => targetMode_monitor (hmon ▸ h), fun hs hhyp => hs.isSecure_of_targetMode_hyp (hhyp ▸ h)⟩
  rcases targetMode_ok h with ⟨hr, rfl⟩ | ⟨hr, rfl⟩ | ⟨hr, hm⟩
  · obtain ⟨o, ho⟩ := offMon_of_route hr
    revert ho
    cases e <;> simp [offMon]
  · obtain ⟨o, ho⟩ := offHyp_of_route hr
    revert ho
    cases e <;> simp [offHyp]
  · cases e with
    | reset => cases hr
    | virtualAbort => cases hm; simp [isSecure_of_route_virtual (x := .virtualAbort) rfl hr]
    | virtualIRQ => cases hm; simp [isSecure_of_route_virtual (x := .virtualIRQ) rfl hr]
    | virtualFIQ => cases hm; simp [isSecure_of_route_virtual (x := .virtualFIQ) rfl hr]
    | _ => cases hm <;> simp

/-! ### Vectors (R88 to R105, R120) -/

theorem vectorAddress_monitor_ok {e : Exc} {s : State} {vec : Word} (h : vectorAddress e .monitor s = .ok vec) :
    ∃ o, offMon e = some o ∧ vec = s.mvbar + o :=
  (tableVector_ok h).2

theorem vectorAddress_hyp_ok {e : Exc} {s : State} {vec : Word} (h : vectorAddress e .hyp s = .ok vec) :
    ∃ o, offHyp s.impl e (s.cpsr.mode == .hyp) = some o ∧ vec = s.hvbar + o :=
  (tableVector_ok h).2

/-- The vector of entry to a PL1 mode other than Monitor: supplied by the interrupt controller, refused, or in the
table of the current security state (R104, R105, R120). -/
theorem vectorAddress_pl1 {e : Exc} {tgt : ExcMode} {s : State} (hmon : tgt ≠ .monitor) (hhyp : tgt ≠ .hyp) :
    vectorAddress e tgt s =
      if isVectored e tgt s then .ok (Config.vectoredAddr e s.draws)
      else if virtualVectored e s then .error .virtualInterruptVectored
      else tableVector s (tableRegime s.isSecure) e (excVectorBase s s.isSecure) (offPL1 e) := by
  cases tgt with
  | monitor => exact absurd rfl hmon
  | hyp => exact absurd rfl hhyp
  | supervisor | undefined | abort | irq | fiq => simp only [vectorAddress, entrySecure_eq]

theorem vectorAddress_pl1_ok {e : Exc} {tgt : ExcMode} {s : State} {vec : Word} (hmon : tgt ≠ .monitor)
    (hhyp : tgt ≠ .hyp) (h : vectorAddress e tgt s = .ok vec) :
    (isVectored e tgt s = true ∧ vec = Config.vectoredAddr e s.draws) ∨
    (isVectored e tgt s = false ∧ ∃ o, offPL1 e = some o ∧ vec = excVectorBase s s.isSecure + o) := by
  rw [vectorAddress_pl1 hmon hhyp] at h
  split at h
  case isTrue hvec => cases h; exact .inl ⟨hvec, rfl⟩
  case isFalse hvec =>
    split at h
    · cases h
    · exact .inr ⟨Bool.eq_false_of_not_eq_true hvec, (tableVector_ok h).2⟩

/-- The controller supplies the vector only where the hardware exists and the VE bit of the current security state is
1 (R104). -/
theorem vecIrq_of_isVectored {e : Exc} {tgt : ExcMode} {s : State} (h : isVectored e tgt s = true) :
    s.impl.vecIrq = true ∧ (s.sctlr s.isSecure).ve = true := by
  simp only [isVectored, entrySecure_eq, Bool.and_eq_true] at h
  obtain ⟨⟨_, hvec⟩, hve⟩ := h
  exact ⟨hvec, hve⟩

/-- An interrupt taken to its PL1 mode is vectored exactly there (R104). -/
theorem isVectored_of_interrupt {e : Exc} {tgt : ExcMode} (he : e = .irq ∨ e = .fiq) (hmon : tgt ≠ .monitor)
    (hhyp : tgt ≠ .hyp) (s : State) :
    isVectored e tgt s = (s.impl.vecIrq && (s.sctlr s.isSecure).ve) := by
  rcases he with rfl | rfl <;> simp [isVectored, entrySecure_eq, bne_iff_ne.2 hmon, bne_iff_ne.2 hhyp]

/-- The vector of an interrupt taken to its PL1 mode (R104, R120). -/
theorem vectorAddress_interrupt_ok {e : Exc} {tgt : ExcMode} {s : State} {o vec : Word} (he : e = .irq ∨ e = .fiq)
    (hmode : pl1Mode e = some tgt) (ho : offPL1 e = some o) (h : vectorAddress e tgt s = .ok vec) :
    vec = if s.impl.vecIrq = true ∧ (s.sctlr s.isSecure).ve = true then Config.vectoredAddr e s.draws
      else excVectorBase s s.isSecure + o := by
  obtain ⟨hmon, hhyp⟩ := pl1Mode_ne hmode
  have hvectored := isVectored_of_interrupt he hmon hhyp s
  rcases vectorAddress_pl1_ok hmon hhyp h with ⟨hvec, rfl⟩ | ⟨hvec, o', ho', rfl⟩
  · rw [hvectored, Bool.and_eq_true] at hvec
    rw [if_pos hvec]
  · rw [hvectored, ← Bool.not_eq_true, Bool.and_eq_true] at hvec
    obtain rfl : o = o' := Option.some.inj (ho.symm.trans ho')
    rw [if_neg hvec]

theorem takeException_interrupt_entered {e : Exc} {ctx : Ctx} {s t : State} {tgt : ExcMode} {o : Word}
    (he : e = .irq ∨ e = .fiq) (hmode : pl1Mode e = some tgt) (ho : offPL1 e = some o)
    (h : takeException e ctx s = .next t) (ht : t.cpsr.mode = tgt.toMode) :
    Entered e ctx.prefReturn ctx.itAtPref tgt
      (if s.impl.vecIrq = true ∧ (s.sctlr s.isSecure).ve = true then Config.vectoredAddr e s.draws
        else excVectorBase s s.isSecure + o) s t := by
  obtain ⟨tgt', _, hvec, entered⟩ := entryIsTheSevenSteps e ctx s t h
  obtain rfl := entered.tgt_eq ht
  exact vectorAddress_interrupt_ok he hmode ho hvec ▸ entered

/-- Settles O18. -/
theorem vectoredInterrupts : Obligations.VectoredInterrupts := fun _ _ _ =>
  ⟨takeException_interrupt_entered (.inl rfl) rfl rfl, takeException_interrupt_entered (.inr rfl) rfl rfl⟩

/-- Settles O14: only five exceptions have an entry in the Monitor vector table. -/
theorem monitorVector : Obligations.MonitorVector := by
  intro e ctx s t h hmode
  obtain ⟨tgt, _, hvec, entered⟩ := entryIsTheSevenSteps e ctx s t h
  obtain rfl := entered.tgt_eq (k := .monitor) hmode
  obtain ⟨o, ho, hpc⟩ := vectorAddress_monitor_ok hvec
  simpa only [hpc, BitVec.add_right_inj] using offMon_cases ho

/-- Settles O15: the Hyp vector table has an entry for each exception taken to Hyp mode, which depends on whether it
was taken from there. -/
theorem hypVector : Obligations.HypVector := by
  intro e ctx s t h hmode
  obtain ⟨tgt, htgt, hvec, entered⟩ := entryIsTheSevenSteps e ctx s t h
  obtain rfl := entered.tgt_eq (k := .hyp) hmode
  obtain ⟨o, ho, hpc⟩ := vectorAddress_hyp_ok hvec
  simp only [hpc, BitVec.add_right_inj]
  refine ⟨fun hne => ?_, fun heq hsvc => ?_⟩
  · rw [beq_false_of_ne hne] at ho
    rcases offHyp_cases_of_not_fromHyp ho with hirq | hfiq | ⟨rfl | hother, hoff⟩
    · exact .inl hirq
    · exact .inr (.inl hfiq)
    · have hforced := user_tge_of_route_supervisorCall_hyp hne (targetMode_hyp_iff.1 htgt)
      exact .inr (.inr ⟨.inl ⟨rfl, hforced⟩, hoff⟩)
    · exact .inr (.inr ⟨.inr hother, hoff⟩)
  · rw [heq] at ho
    exact offHyp_cases_of_fromHyp ho hsvc

/-- Settles O16. -/
theorem interruptsRoutedToMonitor : Obligations.InterruptsRoutedToMonitor := by
  intro s hsec
  have hirq : targetMode .irq s = .ok .monitor ↔ s.scr.irq = true :=
    targetMode_monitor_iff.trans (route_irq_monitor_iff hsec)
  have hfiq : targetMode .fiq s = .ok .monitor ↔ s.scr.fiq = true :=
    targetMode_monitor_iff.trans (route_fiq_monitor_iff hsec)
  exact ⟨hirq, hfiq,
    fun hready hset ctx => takeException_entered ctx (hirq.2 hset) (vectorAddress_monitor rfl hready),
    fun hready hset ctx => takeException_entered ctx (hfiq.2 hset) (vectorAddress_monitor rfl hready)⟩

/-- Settles O21: from Monitor mode, which is Secure, no exception is taken to Hyp mode, and the table of a PL1 mode is
the Secure one. -/
theorem entryFromMonitorClearsNS : Obligations.EntryFromMonitorClearsNS := by
  intro e ctx s t h
  obtain ⟨tgt, htgt, hvec, entered⟩ := entryIsTheSevenSteps e ctx s t h
  refine ⟨fun hmon => ⟨entered.ns_of_monitor hmon, entered.isSecure_of_monitor hmon, ?_⟩, entered.ns_of_not_monitor⟩
  have hsecure : s.isSecure = true := by simp [State.isSecure, hmon.2]
  rcases targetMode_ok htgt with ⟨_, rfl⟩ | ⟨_, rfl⟩ | ⟨_, hmode⟩
  · obtain ⟨o, ho, hpc⟩ := vectorAddress_monitor_ok hvec
    exact .inl ⟨o, ho, entered.mode, hpc⟩
  · rcases targetMode_hyp htgt with hposs | hhyp
    · exact absurd (hypPossible_iff.1 hposs).2 (by simp [hsecure])
    · exact absurd (hmon.2.symm.trans hhyp) (by decide)
  · obtain ⟨hneMon, hneHyp⟩ := pl1Mode_ne hmode
    rcases vectorAddress_pl1_ok hneMon hneHyp hvec with ⟨hvectored, hpc⟩ | ⟨_, o, ho, hpc⟩
    · obtain ⟨hhardware, hve⟩ := vecIrq_of_isVectored hvectored
      rw [hsecure] at hve
      exact .inr (.inr ⟨hhardware, hve, hpc⟩)
    · rw [hsecure] at hpc
      exact .inr (.inl ⟨o, ho, hpc⟩)

/-- Settles O10. -/
theorem pl1Offsets : Obligations.PL1Offsets := by
  unfold Obligations.PL1Offsets
  exact ⟨rfl, rfl, rfl, rfl, rfl, rfl, rfl, rfl, rfl, rfl⟩

/-- Settles O11: without the Security Extensions every state is Secure, so that the only copy of SCTLR is read. -/
theorem baseWithoutSecurityExtensions : Obligations.BaseWithoutSecurityExtensions := by
  intro s hsec
  have hsecure : s.isSecure = true := by simp [State.isSecure, hsec]
  constructor <;> intro hv <;> simp [excVectorBase, State.sctlr, hsecure, hsec, hv]

/-- Settles O12. -/
theorem baseWithSecurityExtensions : Obligations.BaseWithSecurityExtensions := by
  intro s hsec
  constructor <;> simp [excVectorBase, State.sctlr, State.vbar, hsec]

/-! ### Virtual exceptions (R101, R105) -/

theorem targetMode_virtual {x : AsyncExc} {s : State} {tgt : ExcMode} (hx : x.isVirtual = true)
    (hposs : s.hypPossible = true) (hhyp : s.cpsr.mode ≠ .hyp) (hmode : pl1Mode x.toExc = some tgt) :
    targetMode x.toExc s = .ok tgt :=
  targetMode_of_route_pl1 (by simp [route_virtual hx, hposs, hhyp]) hmode

/-- No virtual exception is vectored (R105). -/
theorem isVectored_virtual {x : AsyncExc} (hx : x.isVirtual = true) (tgt : ExcMode) (s : State) :
    isVectored x.toExc tgt s = false := by
  cases x with
  | irq | fiq => cases hx
  | virtualIRQ | virtualFIQ | virtualAbort => rfl

/-- A virtual exception taken to its PL1 mode enters it through the Non-secure table and stays Non-secure. -/
theorem takeException_virtual_entered {x : AsyncExc} {s : State} {tgt : ExcMode} {o : Word} (ctx : Ctx)
    (hx : x.isVirtual = true) (hmode : pl1Mode x.toExc = some tgt) (ho : offPL1 x.toExc = some o)
    (htgt : targetMode x.toExc s = .ok tgt) (hvirt : virtualVectored x.toExc s = false) (hns : s.isSecure = false)
    (hready : tableReady s .nonsecurePL1 (excVectorBase s false) = true) :
    ∃ t, takeException x.toExc ctx s = .next t ∧ t.isSecure = false
      ∧ Entered x.toExc ctx.prefReturn ctx.itAtPref tgt (excVectorBase s false + o) s t := by
  have hvec := vectorAddress_of_pl1Mode hmode ho (isVectored_virtual hx tgt s) hvirt (by rw [hns]; exact hready)
  rw [hns] at hvec
  obtain ⟨t, ht, entered⟩ := takeException_entered ctx htgt hvec
  exact ⟨t, ht, entered.isSecure_of_nonsecure hns (pl1Mode_ne hmode).1, entered⟩

/-- A virtual interrupt under vectoring is refused (R105, D22). -/
theorem takeException_virtualVectored {x : AsyncExc} {s : State} {tgt : ExcMode} (ctx : Ctx)
    (hx : x.isVirtual = true) (hmode : pl1Mode x.toExc = some tgt) (htgt : targetMode x.toExc s = .ok tgt)
    (hvirt : virtualVectored x.toExc s = true) :
    takeException x.toExc ctx s = .refused .virtualInterruptVectored := by
  obtain ⟨hmon, hhyp⟩ := pl1Mode_ne hmode
  simp [takeException, htgt, vectorAddress_pl1 hmon hhyp, isVectored_virtual hx, hvirt]

/-- Settles O19. -/
theorem virtualExceptions : Obligations.VirtualExceptions := by
  intro ctx s hvirt hns hhyp hready
  have hposs := hypPossible_iff.2 ⟨hvirt, hns⟩
  have habort := targetMode_virtual (x := .virtualAbort) rfl hposs hhyp rfl
  have hirq := targetMode_virtual (x := .virtualIRQ) rfl hposs hhyp rfl
  have hfiq := targetMode_virtual (x := .virtualFIQ) rfl hposs hhyp rfl
  refine ⟨takeException_virtual_entered (x := .virtualAbort) ctx rfl rfl rfl habort rfl hns hready,
    fun ⟨hhardware, hve⟩ => ⟨?_, ?_⟩, fun hnot => ⟨?_, ?_⟩⟩
  · exact takeException_virtualVectored (x := .virtualIRQ) ctx rfl rfl hirq
      (by simp [virtualVectored, AsyncExc.toExc, hhardware, hve])
  · exact takeException_virtualVectored (x := .virtualFIQ) ctx rfl rfl hfiq
      (by simp [virtualVectored, AsyncExc.toExc, hhardware, hve])
  · exact takeException_virtual_entered (x := .virtualIRQ) ctx rfl rfl rfl hirq
      (by simpa [virtualVectored, AsyncExc.toExc] using hnot) hns hready
  · exact takeException_virtual_entered (x := .virtualFIQ) ctx rfl rfl rfl hfiq
      (by simpa [virtualVectored, AsyncExc.toExc] using hnot) hns hready

/-! ### A trapped instruction (R97, R119) -/

/-- Settles O25: the offset of a Hyp Trap is the same from Hyp mode. -/
theorem hypTrapEntersHyp : Obligations.HypTrapEntersHyp := by
  intro s rest hi hvirt hns hready
  have htgt : targetMode .hypTrap { s with inputs := rest } = .ok .hyp :=
    targetMode_of_route_hyp (if_pos (hypPossible_iff.2 ⟨hvirt, hns⟩))
  have hvec := vectorAddress_hyp (e := .hypTrap) (s := { s with inputs := rest }) rfl hready
  rw [step, hi]
  exact takeException_entered (ctxAtPc s) htgt hvec

/-! ### Asynchronous exceptions at an instruction boundary (R107, R108) -/

theorem takeable_pending_unmasked {s : State} {x : AsyncExc} (h : takeable s x = true) :
    s.pending.has x = true ∧ Config.masked x s = false := by
  simp only [takeable, Bool.and_eq_true, Bool.not_eq_true'] at h
  obtain ⟨⟨hpending, _⟩, hmasked⟩ := h
  exact ⟨hpending, hmasked⟩

theorem anyTakeable_of_takeable {s : State} {x : AsyncExc} (h : takeable s x = true) : anyTakeable s = true := by
  cases x <;> simp [anyTakeable, h]

theorem afterChoice_of_takeable {s : State} {x : AsyncExc} (h : takeable s x = true) :
    afterChoice s = { s with draws := s.draws + 1 } :=
  if_pos (anyTakeable_of_takeable h)

theorem afterChoice_cases (s : State) : afterChoice s = s ∨ afterChoice s = { s with draws := s.draws + 1 } := by
  cases h : anyTakeable s
  · exact .inl (if_neg (by simp [h]))
  · exact .inr (if_pos h)

/-- The free choice is the exception taken where it may be taken. -/
theorem chosenAsync_of_asyncChoice {s : State} {x : AsyncExc} (hc : Config.asyncChoice s.draws = some x)
    (h : takeable s x = true) : chosenAsync s = some x := by
  simp [chosenAsync, anyTakeable_of_takeable h, hc, h]

theorem runBoundary_of_chosenAsync {s : State} {x : AsyncExc} (h : chosenAsync s = some x) :
    runBoundary s = takeException x.toExc (ctxAtPc s) { s with draws := s.draws + 1 } := by
  simp only [runBoundary, h, afterChoice_of_takeable (chosenAsync_takeable h)]

theorem runBoundary_of_no_choice {s : State} (h : chosenAsync s = none) :
    runBoundary s = runInstr (afterChoice s) := by
  simp only [runBoundary, h]

theorem step_of_no_inputs {s : State} (h : s.inputs = []) : step s = runBoundary s := by
  simp only [step, h]

/-- Settles O6. -/
theorem asyncTakenOnlyIfPendingAndUnmasked : Obligations.AsyncTakenOnlyIfPendingAndUnmasked := by
  intro s hi
  rw [step_of_no_inputs hi]
  refine ⟨?_, fun x hchoice hx => runBoundary_of_chosenAsync (chosenAsync_of_asyncChoice hchoice hx)⟩
  cases hchosen : chosenAsync s with
  | some x =>
    obtain ⟨hpending, hmasked⟩ := takeable_pending_unmasked (chosenAsync_takeable hchosen)
    exact .inl ⟨x, hpending, hmasked, runBoundary_of_chosenAsync hchosen⟩
  | none =>
    rw [runBoundary_of_no_choice hchosen]
    exact .inr ((afterChoice_cases s).imp (congrArg runInstr) (congrArg runInstr))

/-! ### Exception return (R125 to R128) -/

theorem pcAligned_iff {iset : ISet} {a : Word} :
    pcAligned iset a = true ↔
      (iset = .arm ∧ a.extractLsb' 0 2 = 0#2) ∨ (iset = .thumb ∧ a.extractLsb' 0 1 = 0#1) := by
  cases iset <;> simp [pcAligned]

/-- The premises of a return are those that `returnCheck_none` gives (R125, R128). -/
theorem returnCheck_eq_none_iff {addr : Word} {psr : PSR} {s : State} :
    returnCheck addr psr s = none ↔
      Impl.hasMode s.impl psr.mode = true ∧ Mode.inSecurity s.isSecure psr.mode = true
        ∧ psr.mode.pl.rank ≤ s.cpsr.mode.pl.rank ∧ pcAligned psr.iset addr = true := by
  refine ⟨returnCheck_none, fun ⟨hmode, hsec, hrank, haligned⟩ => ?_⟩
  have hscope : ¬ (psr.iset = .jazelle ∨ psr.iset = .thumbEE) := by
    rintro (h | h) <;> rw [h] at haligned <;> cases haligned
  simp [returnCheck, hmode, hsec, hrank, haligned, hscope]

theorem exceptionReturn_of_check {addr : Word} {psr : PSR} {s : State} (h : returnCheck addr psr s = none) :
    exceptionReturn addr psr s = .next { s with pc := addr, cpsr := psr } := by
  simp only [exceptionReturn, h]

theorem exceptionReturn_refused {addr : Word} {psr : PSR} {s : State} (h : returnCheck addr psr s ≠ none) :
    ∃ r, exceptionReturn addr psr s = .refused r := by
  obtain ⟨r, hr⟩ := Option.ne_none_iff_exists'.1 h
  exact ⟨r, by simp only [exceptionReturn, hr]⟩

theorem hasMode_of_imp {c : Impl} {m : Mode} (hmon : m = .monitor → c.secExt = true)
    (hhyp : m = .hyp → c.virtExt = true) : Impl.hasMode c m = true := by
  cases m with
  | monitor => exact hmon rfl
  | hyp => exact hhyp rfl
  | user | fiq | irq | supervisor | abort | undefined | system => rfl

theorem inSecurity_of_imp {secure : Bool} {m : Mode} (hmon : m = .monitor → secure = true)
    (hhyp : m = .hyp → secure = false) : Mode.inSecurity secure m = true := by
  cases m with
  | monitor => exact hmon rfl
  | hyp => rw [hhyp rfl]; rfl
  | user | fiq | irq | supervisor | abort | undefined | system => rfl

/-- Settles O45: these are the premises of a return. -/
theorem returnRestoresPcAndCpsr : Obligations.ReturnRestoresPcAndCpsr := by
  intro s addr psr rest hi hmon hhyp hrank haligned
  have hcheck : returnCheck addr psr { s with inputs := rest } = none :=
    returnCheck_eq_none_iff.2 ⟨hasMode_of_imp (fun h => (hmon h).1) (fun h => (hhyp h).1),
      inSecurity_of_imp (fun h => (hmon h).2) (fun h => (hhyp h).2), hrank, pcAligned_iff.2 haligned⟩
  rw [step, hi]
  exact exceptionReturn_of_check hcheck

/-- Settles O46: each case breaks one premise. -/
theorem illegalReturnIsRefused : Obligations.IllegalReturnIsRefused := by
  intro s addr psr hbad
  refine exceptionReturn_refused fun hcheck => ?_
  obtain ⟨hmode, hsec, hrank, haligned⟩ := returnCheck_none hcheck
  rcases hbad with ⟨hm, hno⟩ | ⟨hm, hno⟩ | hraise | ⟨hm, hno⟩ | ⟨hset, hmis⟩ | ⟨hset, hmis⟩
  · rw [hm] at hmode
    exact Bool.false_ne_true (hno.symm.trans hmode)
  · rw [hm] at hmode
    exact Bool.false_ne_true (hno.symm.trans hmode)
  · exact absurd hrank (Nat.not_le.2 hraise)
  · rw [hm] at hsec
    exact Bool.false_ne_true (hno.symm.trans hsec)
  · simp [pcAligned_iff, hset, hmis] at haligned
  · simp [pcAligned_iff, hset, hmis] at haligned

/-- Settles O47. -/
theorem returnDoesNotAdjustIT : Obligations.ReturnDoesNotAdjustIT := by
  intro s t addr psr h
  obtain ⟨_, rfl⟩ := exceptionReturn_next h
  exact ⟨rfl, rfl⟩

/-! ### Return after entry (R112 to R114, R125) -/

/-- Every mode an exception is taken to has the privilege of the PL1 modes at least. -/
theorem one_le_rank_toMode (m : ExcMode) : 1 ≤ m.toMode.pl.rank := by
  cases m <;> decide

/-- Every mode but Hyp has the privilege of the PL1 modes at most. -/
theorem rank_le_one {m : Mode} (h : m ≠ .hyp) : m.pl.rank ≤ 1 := by
  cases m with
  | hyp => exact absurd rfl h
  | user | fiq | irq | supervisor | monitor | abort | undefined | system => decide

/-- After entry, but for entry from Hyp mode to another mode, the mode the exception was taken from can be returned to:
it exists, suits the security state, and has no higher privilege. -/
theorem Entered.returnCheck_none {e : Exc} {pref : Word} {it : BitVec 8} {tgt : ExcMode} {vec : Word} {s t : State}
    (h : Entered e pref it tgt vec s t) (hmon : s.cpsr.mode = .monitor → s.impl.secExt = true)
    (hhyp : s.cpsr.mode = .hyp → tgt = .hyp ∧ s.impl.virtExt = true ∧ s.isSecure = false)
    (haligned : pcAligned s.cpsr.iset pref = true) : returnCheck pref { s.cpsr with it := it } t = none := by
  refine returnCheck_eq_none_iff.2 ⟨?_, inSecurity_of_imp (fun hm => ?_) (fun hm => ?_), ?_, haligned⟩
  · rw [h.impl]
    exact hasMode_of_imp hmon fun hm => (hhyp hm).2.1
  · exact h.isSecure_of_monitor ⟨hmon hm, hm⟩
  · obtain ⟨rfl, _, hns⟩ := hhyp hm
    exact h.isSecure_of_nonsecure hns (by decide)
  · rw [h.mode]
    by_cases hm : s.cpsr.mode = .hyp
    · obtain ⟨rfl, _, _⟩ := hhyp hm
      exact (congrArg (·.pl.rank) hm).le
    · exact (rank_le_one hm).trans (one_le_rank_toMode tgt)

/-- SCR after entry: SCR.NS cleared where the exception was taken from Monitor mode, nothing else changed (R114). -/
theorem Entered.scr {e : Exc} {pref : Word} {it : BitVec 8} {tgt : ExcMode} {vec : Word} {s t : State}
    (h : Entered e pref it tgt vec s t) (hmon : s.cpsr.mode = .monitor → s.impl.secExt = true) :
    t.scr = if s.cpsr.mode = .monitor then { s.scr with ns := false } else s.scr := by
  obtain ⟨_, _, _, _, _, _, _, hirq, hfiq, _, _⟩ := h.control
  have hscr : t.scr = { s.scr with ns := t.scr.ns } := by simp only [← hirq, ← hfiq]
  split
  case isTrue hm => rw [hscr, h.ns_of_monitor ⟨hmon hm, hm⟩]
  case isFalse hm => rw [hscr, h.ns_of_not_monitor fun hc => hm hc.2]

/-- Settles O48: entry saved what the return needs, and left a state the return is permitted from. -/
theorem returnAfterEntryResumes : Obligations.ReturnAfterEntryResumes := by
  intro e ctx s t tgt h htgt hmon hhyp haligned
  obtain ⟨tgt', htgt', _, entered⟩ := entryIsTheSevenSteps e ctx s t h
  obtain rfl : tgt = tgt' := Except.ok.inj (htgt.symm.trans htgt')
  rw [entered.link, BitVec.add_sub_cancel, entered.spsr]
  exact ⟨_, exceptionReturn_of_check (entered.returnCheck_none hmon hhyp haligned), rfl, rfl, entered.scr hmon⟩

end Sys2Proof.Machine
